-- ==== Sys2Proof/Word.lean ====
section
/-! DEFINITION. The three widths of the block's values (00_scope.md R1, R7; 30_encoding.md R33). Every value is unsigned. -/

namespace Sys2Proof

/-- A 32-bit word (00_scope.md R1 `W`); `+` on it is the sum modulo 2^32 of R2 and `^^^` the `XOR` of R3. -/
abbrev Word := BitVec 32

/-- A byte of the input buffer or of the digest (00_scope.md R7). -/
abbrev Byte := BitVec 8

/-- A command word on the `cmd` port (30_encoding.md R33). -/
abbrev CmdWord := BitVec 16

end Sys2Proof
end

