-- ==== Sys2Proof/Syntax.lean ====
section
/-! DEFINITION. The commands (30_encoding.md R35), the fields of a command word (R33), and the source commands with the
two pseudo-commands (R38, R39). -/

namespace Sys2Proof

/-- One constructor per row of `spec/opcode_table.json`. The only operand is the data byte of ABSORB (30_encoding.md R34). -/
inductive Instr where
  /-- Start a new hash (43_controller.md R59). -/
  | init
  /-- Append the byte `d` (43_controller.md R60). -/
  | absorb (d : Byte)
  /-- Finish the hash (43_controller.md R61). -/
  | final
deriving DecidableEq, Repr

/-- The fields of a command word (30_encoding.md R33). -/
structure Fields where
  /-- `DATA`, bits `[15:8]`. -/
  data : Byte
  /-- `RSV`, bits `[7:2]`, reserved. -/
  rsv : BitVec 6
  /-- `OP`, bits `[1:0]`. -/
  op : BitVec 2
deriving DecidableEq, Repr

/-- Why a command word is illegal (30_encoding.md R36). Every reason raises the same fault, IllegalCommand (log 13). -/
inductive IllegalReason where
  /-- `OP = 11`. -/
  | reservedOp
  /-- `RSV != 0`. -/
  | reservedBits
  /-- INIT with `DATA != 0`. -/
  | initWithData
  /-- FINAL with `DATA != 0`. -/
  | finalWithData
deriving DecidableEq, Repr

/-- What a command word decodes as (30_encoding.md R35, R36). -/
inductive Decoded where
  /-- A legal command. -/
  | instr (i : Instr)
  /-- An illegal word, with the reason. -/
  | illegal (reason : IllegalReason)
deriving DecidableEq, Repr

/-- One line of a command program before its operands are checked: the three commands (30_encoding.md R38) and the two
pseudo-commands (R39). An operand is any number here; `SourceCommand.wellFormed` checks it. -/
inductive SourceCommand where
  /-- `INIT`. -/
  | init
  /-- `ABSORB operand`. -/
  | absorb (operand : Nat)
  /-- `FINAL`. -/
  | final
  /-- `UPDATE b0, ..., bn-1`, also written with a text. -/
  | update (operands : List Nat)
  /-- `HASH b0, ..., bn-1`, also written with a text. -/
  | hash (operands : List Nat)
deriving DecidableEq, Repr

end Sys2Proof
end

