-- ==== Sys2Proof/WellFormed.lean ====
section
/-! DEFINITION. What the spec demands of the fields of a command word (30_encoding.md R33, R36) and of the operands of a
source command (R38). -/

namespace Sys2Proof

/-- The fields of a legal command word (30_encoding.md R33, R35): `OP` is not reserved, `RSV` is 0, and `DATA` is 0
unless the command is ABSORB. -/
def Fields.wellFormed (x : Fields) : Bool :=
  x.op != 3 && x.rsv == 0 && (x.op == 1 || x.data == 0)

/-- The fields of a command (30_encoding.md R33, R35). -/
def Instr.fields : Instr → Fields
  | .init => { data := 0, rsv := 0, op := 0 }
  | .absorb d => { data := d, rsv := 0, op := 1 }
  | .final => { data := 0, rsv := 0, op := 2 }

/-- A command is well-formed when its fields are those of a legal word. Its one operand is a byte by its type, so there
is nothing else to check (30_encoding.md R34). -/
def Instr.wellFormed (i : Instr) : Bool := i.fields.wellFormed

/-- Every operand of a source command is in 0..255: "An ABSORB operand outside 0..255 is an assembly error and encodes
nothing" (30_encoding.md R38), and a pseudo-command is a list of ABSORBs (R39). -/
def SourceCommand.wellFormed : SourceCommand → Bool
  | .init => true
  | .absorb n => n < 256
  | .final => true
  | .update ns => ns.all (· < 256)
  | .hash ns => ns.all (· < 256)

end Sys2Proof
end

