-- ==== Sys2Proof/Decode.lean ====
section
/-! DEFINITION. Decoding and encoding of command words (30_encoding.md R33 to R36). -/

namespace Sys2Proof

/-- The fields of a word (30_encoding.md R33). -/
def unpack (w : CmdWord) : Fields :=
  { data := w.extractLsb' 8 8, rsv := w.extractLsb' 2 6, op := w.extractLsb' 0 2 }

/-- The word with the given fields (30_encoding.md R33). -/
def pack (x : Fields) : CmdWord := x.data ++ x.rsv ++ x.op

/-- The command that fields stand for (30_encoding.md R33, R35, R36). -/
def decodeFields (x : Fields) : Decoded :=
  if x.op = 3 then .illegal .reservedOp
  else if x.rsv ≠ 0 then .illegal .reservedBits
  else if x.op = 1 then .instr (.absorb x.data)
  else if x.op = 0 then (if x.data = 0 then .instr .init else .illegal .initWithData)
  else (if x.data = 0 then .instr .final else .illegal .finalWithData)

/-- The decoder: total on the 65,536 words, and a function of the word alone (30_encoding.md R35, R36). -/
def decode (w : CmdWord) : Decoded := decodeFields (unpack w)

/-- The word decoded is a legal command (30_encoding.md R35). -/
def Decoded.isLegal : Decoded → Bool
  | .instr _ => true
  | .illegal _ => false

/-- The word of a command: "`ABSORB d -> (d << 8) | 0x0001`, `INIT -> 0x0000` and `FINAL -> 0x0002`" (30_encoding.md R38),
laid out by its fields (R33). -/
def encode (i : Instr) : CmdWord := pack i.fields

/-- One row of the decode table of 30_encoding.md R35. -/
structure OpcodeRow where
  /-- The row's mnemonic. -/
  mnemonic : String
  /-- The bits a word of the row has where `mask` is set. -/
  pattern : CmdWord
  /-- The bits that decide. -/
  mask : CmdWord
deriving DecidableEq, Repr

/-- The word falls into the row. -/
def OpcodeRow.covers (r : OpcodeRow) (w : CmdWord) : Bool := w &&& r.mask == r.pattern

/-- The rows for INIT, ABSORB and FINAL (30_encoding.md R35). -/
def opcodeTable : List OpcodeRow :=
  [ { mnemonic := "INIT", pattern := 0x0000, mask := 0xFFFF },
    { mnemonic := "ABSORB", pattern := 0x0001, mask := 0x00FF },
    { mnemonic := "FINAL", pattern := 0x0002, mask := 0xFFFF } ]

/-- The command read from a word of the opcode table that is `nbits` bits long. Every command is one 16-bit word
(30_encoding.md R33), so a longer one is none, and the bits above a shorter one are 0. -/
def decodeTableWord (nbits w : Nat) : Option Instr :=
  if nbits ≤ 16 then
    match decode (BitVec.ofNat 16 (w % 2 ^ nbits)) with
    | .instr i => some i
    | .illegal _ => none
  else none

end Sys2Proof
end

