-- ==== Sys2Proof/Config.lean ====
section
/-! DEFINITION. What is fixed for this hardware (00_scope.md R1), and the free values for what its spec leaves unspecified. -/

namespace Sys2Proof.Config

/-- Words of the chaining value (00_scope.md R1 `HWORDS`). -/
def hWords : Nat := 8

/-- Words of the working vector (00_scope.md R1 `VWORDS`). -/
def vWords : Nat := 16

/-- Bytes of a block (00_scope.md R1 `BLOCK`). -/
def blockBytes : Nat := 64

/-- Rounds of one compression (00_scope.md R1 `ROUNDS`). -/
def rounds : Nat := 10

/-- Applications of G in one round (00_scope.md R1 `GPR`). -/
def applicationsPerRound : Nat := 8

/-- Bytes of a digest, fixed (00_scope.md R1 `DIGEST_LEN`). -/
def digestLen : Nat := 32

/-- A free word: the value the spec leaves unspecified in word number `position` at draw number `draw`.
Positions 0 to 7 are `h`, 8 is `t0`, 9 is `t1` and 10 is `f` (70_reset_and_hazards.md R80; log 6). -/
opaque freeWord (draw position : Nat) : Word

/-- A free byte: the unspecified value of `buf[position]` at draw number `draw` (70_reset_and_hazards.md R80; log 6). -/
opaque freeByte (draw position : Nat) : Byte

/-- A free buffer length in 0..64: the unspecified `buflen` at draw number `draw`
(70_reset_and_hazards.md R80, 43_controller.md R61; log 6, log 7). -/
opaque freeLength (draw : Nat) : Fin 65

end Sys2Proof.Config
end

