-- ==== Sys2Proof/Machine/State.lean ====
section
/-! DEFINITION. The architectural state (10_state.md), what a command can end in, and the state after reset. -/

namespace Sys2Proof.Machine

/-- The lifecycle register: "exactly the three values above" (10_state.md R15). -/
inductive Phase where
  /-- No INIT since reset. -/
  | uninit
  /-- INIT has run and FINAL has not. -/
  | absorbing
  /-- FINAL has run, and the digest port is valid. -/
  | finalized
deriving DecidableEq, Repr

/-- The values of the fault register (60_exceptions.md R70); codes 6 and 7 are never produced. -/
inductive FaultCode where
  /-- Code 0: no fault. -/
  | noFault
  /-- Code 1: the word is no legal command. -/
  | illegalCommand
  /-- Code 2: ABSORB or FINAL in UNINIT. -/
  | uninitialised
  /-- Code 3: ABSORB in FINALIZED. -/
  | absorbAfterFinal
  /-- Code 4: FINAL in FINALIZED. -/
  | finalAfterFinal
  /-- Code 5: the 64-bit byte counter would pass its limit. -/
  | counterOverflow
deriving DecidableEq, Repr

/-- What the host can put on the input ports (30_encoding.md R32). -/
inductive PortEvent where
  /-- A command word on `cmd`. -/
  | cmd (w : CmdWord)
  /-- Reset on `rst`. -/
  | rst
deriving DecidableEq, Repr

/-- The input buffer (20_memory.md R22) as its cells, in one canonical form: addresses strictly rising and below 64, and
no cell whose byte an unlisted address reads as (log 8). -/
abbrev Memory := List Host.Cell

/-- What a byte of the buffer that is not listed reads as: the 0 that INIT writes everywhere (43_controller.md R59). For
a buffer that nothing has written since `State.reset` it is the model's own choice (log 5, log 8). -/
def Memory.unlisted : Byte := 0

/-- The whole state of one instance of the block (10_state.md, section 1). The names are the spec's, but for the last
two fields, which are the model's own. -/
structure State where
  /-- The chaining value (10_state.md R10). -/
  h : Vector Word 8
  /-- The low half of the byte counter (10_state.md R11). -/
  t0 : Word
  /-- The high half of the byte counter (10_state.md R11). -/
  t1 : Word
  /-- The finalization flag, a 32-bit word (10_state.md R12). -/
  f : Word
  /-- The input buffer, 64 bytes (10_state.md R13). -/
  buf : Memory
  /-- The buffer length, 0..64 (10_state.md R14). -/
  buflen : Fin 65
  /-- The lifecycle register (10_state.md R15). -/
  phase : Phase
  /-- The fault register (10_state.md R16). -/
  fault : FaultCode
  /-- The model's own: the port events the block has not yet taken, oldest first (log 1). -/
  pending : List PortEvent
  /-- The model's own: how many draws of unspecified values have been taken (log 6, log 7). -/
  draws : Nat
deriving DecidableEq, Repr

/-- The state right after reset: UNINIT and no fault (10_state.md R21). The spec leaves `h`, `t0`, `t1`, `f`, `buf` and
`buflen` unspecified there, and their 0 is the model's own choice (log 5). -/
def State.reset : State :=
  { h := #v[0, 0, 0, 0, 0, 0, 0, 0]
    t0 := 0
    t1 := 0
    f := 0
    buf := []
    buflen := 0
    phase := .uninit
    fault := .noFault
    pending := []
    draws := 0 }

/-- Why the machine stops. -/
inductive Fault where
  /-- A command was issued while the fault register held `latched`, which is not 0: "no command has a step"
  (60_exceptions.md R73). Raised by every command and every illegal word. Safe: it gives no next state (log 3). -/
  | stopped (latched : FaultCode)
deriving DecidableEq, Repr

/-- Why the model gives a command no meaning. -/
inductive Refusal where
  /-- The command has no meaning in the model yet. Raised by no arm of `exec` in this model. Safe: it gives no next state. -/
  | notModelled (mnemonic : String)
deriving DecidableEq, Repr

/-- What a command ends in. -/
abbrev Result := Host.Outcome State Fault Refusal

end Sys2Proof.Machine
end

