-- ==== Sys2Proof/Machine/Ops.lean ====
section
/-! DEFINITION. The primitives of 00_scope.md section 5, the operations over the input buffer, the fault of a command
(60_exceptions.md R71 to R73) and reset (70_reset_and_hazards.md R80). -/

namespace Sys2Proof.Machine

/-- Rotation right by `n`, for `0 < n < 32` (00_scope.md R4). -/
def rotr (x : Word) (n : Nat) : Word := (x >>> n) ||| (x <<< (32 - n))

/-- The word whose least significant byte is `b0` (00_scope.md R5). -/
def le32 (b0 b1 b2 b3 : Byte) : Word :=
  b0.setWidth 32 ||| (b1.setWidth 32 <<< 8) ||| (b2.setWidth 32 <<< 16) ||| (b3.setWidth 32 <<< 24)

/-- The four bytes of a word, least significant first (00_scope.md R6). -/
def bytesLE (w : Word) : Vector Byte 4 :=
  #v[w.extractLsb' 0 8, w.extractLsb' 8 8, w.extractLsb' 16 8, w.extractLsb' 24 8]

/-- The canonical form of the buffer (log 8). -/
abbrev Memory.wf (m : Memory) : Prop :=
  m.Pairwise (fun x y => x.1 < y.1) ∧ ∀ c ∈ m, c.1 < 64 ∧ c.2 ≠ Memory.unlisted

/-- The byte at address `a`. -/
def memRead : Memory → Nat → Byte
  | [], _ => Memory.unlisted
  | c :: m, a => if c.1 = a then c.2 else memRead m a

/-- A cell put in its place by address. -/
def memInsert (c : Host.Cell) : Memory → Memory
  | [] => [c]
  | c' :: m => if c.1 < c'.1 then c :: c' :: m else c' :: memInsert c m

/-- `MemWrite(a, 1, b)` (20_memory.md R23): writing the byte that an unlisted address reads as unlists the address. -/
def memWrite (m : Memory) (a : Fin 64) (b : Byte) : Memory :=
  let rest := m.filter (fun c => c.1 ≠ a.val)
  if b = Memory.unlisted then rest else memInsert (a.val, b) rest

/-- Byte writes to a list of addresses, one after the other (20_memory.md R23). -/
def memWriteAll (m : Memory) (addresses : List (Fin 64)) (byteAt : Fin 64 → Byte) : Memory :=
  addresses.foldl (fun m a => memWrite m a (byteAt a)) m

/-- The addresses `buflen..63`, rising (43_controller.md R61). -/
def tailAddresses (len : Fin 65) : List (Fin 64) :=
  (List.finRange 64).filter (fun a => len.val ≤ a.val)

/-- `buf[j]` of a state (10_state.md R13). -/
def State.bufByte (s : State) (j : Fin 64) : Byte := memRead s.buf j.val

/-- `buf[j] <- d` and then `buflen <- j + 1` (the end of ABSORB, 43_controller.md R60). -/
def appendByte (j : Fin 64) (d : Byte) (s : State) : State :=
  { s with buf := memWrite s.buf j d, buflen := j.succ }

/-- `buf[j] <- 0` for `j` in `buflen..63` (FINAL's padding, 43_controller.md R61). -/
def padTail (s : State) : State :=
  { s with buf := memWriteAll s.buf (tailAddresses s.buflen) (fun _ => 0) }

/-- Fault entry: the code is latched "and nothing else" (60_exceptions.md R72). -/
def latchFault (c : FaultCode) (s : State) : State := { s with fault := c }

/-- `raise Fault(c)` (60_exceptions.md R72): the faulting command ends with its code latched. -/
def raiseFault (c : FaultCode) (s : State) : Result := .next (latchFault c s)

/-- The first check of every command: while `fault` is not 0 "no command has a step" (60_exceptions.md R71, R73; log 3). -/
def unlessFaulted (s : State) (go : Result) : Result :=
  if s.fault = .noFault then go else .fault (.stopped s.fault)

/-- The phase check of ABSORB and FINAL, with the code each raises in FINALIZED (60_exceptions.md R71). -/
def whileAbsorbing (s : State) (afterFinal : FaultCode) (go : Result) : Result :=
  match s.phase with
  | .uninit => raiseFault .uninitialised s
  | .finalized => raiseFault afterFinal s
  | .absorbing => go

/-- The step of an illegal word (30_encoding.md R36, 60_exceptions.md R71). -/
def illegalCommand (s : State) : Result :=
  unlessFaulted s (raiseFault .illegalCommand s)

/-- Reset on the `rst` port (70_reset_and_hazards.md R80): UNINIT, no fault, and every data field holds a fresh free
value (log 6). -/
def applyReset (s : State) : State :=
  { s with
    h := Vector.ofFn (fun i : Fin 8 => Config.freeWord s.draws i.val)
    t0 := Config.freeWord s.draws 8
    t1 := Config.freeWord s.draws 9
    f := Config.freeWord s.draws 10
    buf := memWriteAll [] (List.finRange 64) (fun j => Config.freeByte s.draws j.val)
    buflen := Config.freeLength s.draws
    phase := .uninit
    fault := .noFault
    draws := s.draws + 1 }

end Sys2Proof.Machine
end

