-- ==== Sys2Proof/Machine/Tables.lean ====
section
/-! DEFINITION. The constant tables (40_tables.md), the positions of the eight applications of a round (42_compression.md
R53) and the rotation amounts (41_mixing.md R46). No command writes any of them (10_state.md R19; log 11). -/

namespace Sys2Proof.Machine

/-- The initialization vector (40_tables.md R40). -/
def iv : Vector Word 8 :=
  #v[0x6A09E667, 0xBB67AE85, 0x3C6EF372, 0xA54FF53A, 0x510E527F, 0x9B05688C, 0x1F83D9AB, 0x5BE0CD19]

/-- The round schedule, one row per round (40_tables.md R41). -/
def sigma : Vector (Vector (Fin 16) 16) 10 :=
  #v[#v[0, 1, 2, 3, 4, 5, 6, 7, 8, 9, 10, 11, 12, 13, 14, 15],
     #v[14, 10, 4, 8, 9, 15, 13, 6, 1, 12, 0, 2, 11, 7, 5, 3],
     #v[11, 8, 12, 0, 5, 2, 15, 13, 10, 14, 3, 6, 7, 1, 9, 4],
     #v[7, 9, 3, 1, 13, 12, 11, 14, 2, 6, 5, 10, 4, 0, 15, 8],
     #v[9, 0, 5, 7, 2, 4, 10, 15, 14, 1, 11, 12, 6, 8, 3, 13],
     #v[2, 12, 6, 10, 0, 11, 8, 3, 4, 13, 7, 5, 15, 14, 1, 9],
     #v[12, 5, 1, 15, 14, 13, 4, 10, 0, 7, 6, 3, 9, 2, 8, 11],
     #v[13, 11, 7, 14, 12, 1, 3, 9, 5, 0, 15, 4, 8, 6, 2, 10],
     #v[6, 15, 14, 9, 11, 3, 0, 8, 12, 2, 13, 7, 1, 4, 10, 5],
     #v[10, 2, 8, 4, 7, 6, 1, 5, 15, 11, 9, 14, 3, 12, 13, 0]]

/-- The parameter word, `0x01010000 OR DIGEST_LEN` (40_tables.md R43). -/
def param : Word := 0x01010000 ||| BitVec.ofNat 32 Config.digestLen

/-- The value FINAL writes to `f` (40_tables.md R44). -/
def flagFinal : Word := 0xFFFFFFFF

/-- The chaining value INIT loads (40_tables.md R45, 43_controller.md R59). -/
def initialChaining : Vector Word 8 := iv.set 0 (iv[0] ^^^ param)

/-- The four positions of `v` that one application of G works on. -/
structure Positions where
  /-- The position of `a`. -/
  pa : Fin 16
  /-- The position of `b`. -/
  pb : Fin 16
  /-- The position of `c`. -/
  pc : Fin 16
  /-- The position of `d`. -/
  pd : Fin 16
deriving DecidableEq, Repr

/-- `GROUP[0..7]`: four columns, then four diagonals (42_compression.md R53). -/
def group : Vector Positions 8 :=
  #v[⟨0, 4, 8, 12⟩, ⟨1, 5, 9, 13⟩, ⟨2, 6, 10, 14⟩, ⟨3, 7, 11, 15⟩,
     ⟨0, 5, 10, 15⟩, ⟨1, 6, 11, 12⟩, ⟨2, 7, 8, 13⟩, ⟨3, 4, 9, 14⟩]

/-- The four rotation amounts of G, in their order of use (41_mixing.md R46). -/
def rotations : Vector Nat 4 := #v[16, 12, 8, 7]

end Sys2Proof.Machine
end

