-- ==== Sys2Proof/Machine/Mixing.lean ====
section
/-! DEFINITION. The mixing primitive G (41_mixing.md). -/

namespace Sys2Proof.Machine

/-- The four words G gives. -/
structure Quad where
  /-- `a'`. -/
  a : Word
  /-- `b'`. -/
  b : Word
  /-- `c'`. -/
  c : Word
  /-- `d'`. -/
  d : Word
deriving DecidableEq, Repr

/-- G, its eight steps in order (41_mixing.md R47). -/
def mixG (a b c d mx my : Word) : Quad :=
  let a := a + b + mx
  let d := rotr (d ^^^ a) rotations[0]
  let c := c + d
  let b := rotr (b ^^^ c) rotations[1]
  let a := a + b + my
  let d := rotr (d ^^^ a) rotations[2]
  let c := c + d
  let b := rotr (b ^^^ c) rotations[3]
  { a := a, b := b, c := c, d := d }

/-- G in place on four positions of the working vector (41_mixing.md R48). -/
def applyG (p : Positions) (mx my : Word) (v : Vector Word 16) : Vector Word 16 :=
  let q := mixG v[p.pa] v[p.pb] v[p.pc] v[p.pd] mx my
  (((v.set p.pa q.a).set p.pb q.b).set p.pc q.c).set p.pd q.d

end Sys2Proof.Machine
end

