-- ==== Sys2Proof/Machine/Operands.lean ====
section
/-! DEFINITION. The operands COMPRESS takes from the buffer (20_memory.md R24). The one operand of a command word, the
byte `DATA` of ABSORB (30_encoding.md R34), is pulled out by the decoder and taken as it is. -/

namespace Sys2Proof.Machine

/-- `MemRead(addr, 4)` (20_memory.md R24). -/
def memRead32 (m : Memory) (addr : Nat) : Word :=
  le32 (memRead m addr) (memRead m (addr + 1)) (memRead m (addr + 2)) (memRead m (addr + 3))

/-- The message words `m[0..15]` of the buffer: `m[k] = MemRead(4k, 4)` (20_memory.md R24). -/
def messageWords (m : Memory) : Vector Word 16 :=
  Vector.ofFn (fun k : Fin 16 => memRead32 m (4 * k.val))

end Sys2Proof.Machine
end

