-- ==== Sys2Proof/Machine/Compression.lean ====
section
/-! DEFINITION. The compression engine COMPRESS (42_compression.md). Its working vector and its round and application
indices live only inside `compress` (10_state.md R17; log 10). -/

namespace Sys2Proof.Machine

/-- The working vector before the first round (42_compression.md R51, R52). -/
def workingVector (h : Vector Word 8) (t0 t1 f : Word) : Vector Word 16 :=
  let v : Vector Word 16 :=
    #v[h[0], h[1], h[2], h[3], h[4], h[5], h[6], h[7], iv[0], iv[1], iv[2], iv[3], iv[4], iv[5], iv[6], iv[7]]
  let v := v.set 12 (v[12] ^^^ t0)
  let v := v.set 13 (v[13] ^^^ t1)
  v.set 14 (v[14] ^^^ f)

/-- Application `i` of round `r`: G on `GROUP[i]` with `m[SIGMA[r][2i]]` and `m[SIGMA[r][2i+1]]` (42_compression.md R54). -/
def application (m : Vector Word 16) (r : Fin 10) (v : Vector Word 16) (i : Fin 8) : Vector Word 16 :=
  applyG group[i] m[sigma[r][2 * i.val]] m[sigma[r][2 * i.val + 1]] v

/-- The applications of a round, in order (42_compression.md R54). -/
def applicationOrder : List (Fin 8) := [0, 1, 2, 3, 4, 5, 6, 7]

/-- One round (42_compression.md R54). -/
def mixRound (m : Vector Word 16) (v : Vector Word 16) (r : Fin 10) : Vector Word 16 :=
  applicationOrder.foldl (application m r) v

/-- The rounds of a compression, in order (42_compression.md R54). -/
def roundOrder : List (Fin 10) := [0, 1, 2, 3, 4, 5, 6, 7, 8, 9]

/-- The ten rounds (42_compression.md R54). -/
def mixRounds (m : Vector Word 16) (v : Vector Word 16) : Vector Word 16 :=
  roundOrder.foldl (mixRound m) v

/-- The fold of the working vector back into the chaining value (42_compression.md R55). -/
def foldBack (h : Vector Word 8) (v : Vector Word 16) : Vector Word 8 :=
  Vector.ofFn (fun i : Fin 8 => h[i] ^^^ v[i.val] ^^^ v[i.val + 8])

/-- COMPRESS as "a pure function of its inputs" (42_compression.md R50). -/
def compress (h : Vector Word 8) (m : Vector Word 16) (t0 t1 f : Word) : Vector Word 8 :=
  foldBack h (mixRounds m (workingVector h t0 t1 f))

/-- COMPRESS on the state: it reads `h`, `buf`, `t0`, `t1` and `f`, and writes `h` (42_compression.md R50). -/
def compressBlock (s : State) : State :=
  { s with h := compress s.h (messageWords s.buf) s.t0 s.t1 s.f }

end Sys2Proof.Machine
end

