-- ==== Sys2Proof/Machine/Flags.lean ====
section
/-! DEFINITION. The counter increment with its carry and its overflow, the only ones the block keeps (43_controller.md
R57, R58; 00_scope.md R2), and the finalization flag (10_state.md R12). No other operation computes a flag. -/

namespace Sys2Proof.Machine

/-- What `CTR_ADD` returns. -/
structure CtrSum where
  /-- The new low half. -/
  n0 : Word
  /-- The new high half. -/
  n1 : Word
  /-- The 64-bit counter would wrap. -/
  ovf : Bool
deriving DecidableEq, Repr

/-- `CTR_ADD(k)` for `k` in 0..64 (43_controller.md R57). -/
def ctrAdd (t0 t1 : Word) (k : Fin 65) : CtrSum :=
  let n0 := t0 + BitVec.ofNat 32 k.val
  let carry : Bool := n0.toNat < k.val
  { n0 := n0
    n1 := if carry then t1 + 1 else t1
    ovf := t1 == 0xFFFFFFFF && carry }

/-- `t0 <- n0; t1 <- n1` (43_controller.md R60, R61). -/
def takeCount (c : CtrSum) (s : State) : State := { s with t0 := c.n0, t1 := c.n1 }

/-- Count `k` bytes and go on, or raise CounterOverflow before anything is written (43_controller.md R58). -/
def counting (k : Fin 65) (s : State) (go : State → Result) : Result :=
  let c := ctrAdd s.t0 s.t1 k
  if c.ovf then raiseFault .counterOverflow s else go (takeCount c s)

/-- `f <- 0xFFFFFFFF` (43_controller.md R61). -/
def raiseFlag (s : State) : State := { s with f := flagFinal }

end Sys2Proof.Machine
end

