-- ==== Sys2Proof/Machine/Controller.lean ====
section
/-! DEFINITION. The three commands (43_controller.md, section 2). -/

namespace Sys2Proof.Machine

/-- What INIT writes: every data field and the phase, from constants alone (43_controller.md R59). -/
def startHash (s : State) : State :=
  { s with
    h := initialChaining
    t0 := 0
    t1 := 0
    f := 0
    buf := []
    buflen := 0
    phase := .absorbing }

/-- The end of FINAL: `buflen` is unspecified (a free value in 0..64, log 7) and the phase is FINALIZED
(43_controller.md R61). -/
def finishHash (s : State) : State :=
  { s with buflen := Config.freeLength s.draws, phase := .finalized, draws := s.draws + 1 }

/-- INIT (43_controller.md R59). -/
def execInit (s : State) : Result :=
  unlessFaulted s (.next (startHash s))

/-- ABSORB `d` (43_controller.md R60): a full buffer is counted, compressed and emptied before the byte is appended. -/
def execAbsorb (d : Byte) (s : State) : Result :=
  unlessFaulted s <| whileAbsorbing s .absorbAfterFinal <|
    if room : s.buflen.val < 64 then
      .next (appendByte ⟨s.buflen.val, room⟩ d s)
    else
      counting 64 s fun s => .next (appendByte 0 d (compressBlock s))

/-- FINAL (43_controller.md R61): counter, flag, padding, compression, in the source's order. -/
def execFinal (s : State) : Result :=
  unlessFaulted s <| whileAbsorbing s .finalAfterFinal <|
    counting s.buflen s fun s => .next (finishHash (compressBlock (padTail (raiseFlag s))))

end Sys2Proof.Machine
end

