-- ==== Sys2Proof/Machine/Fetch.lean ====
section
/-! DEFINITION. Taking one event from the host's input ports (30_encoding.md R32). -/

namespace Sys2Proof.Machine

/-- Issuing one word on the `cmd` port: decode it, then run the command or fault (30_encoding.md R35, R36). -/
def issueWord (w : CmdWord) (s : State) : Result :=
  match decode w with
  | .instr i => exec i s
  | .illegal _ => illegalCommand s

/-- Taking one port event. Reset is taken in any state (70_reset_and_hazards.md R81, 60_exceptions.md R73). -/
def takeEvent (e : PortEvent) (s : State) : Result :=
  match e with
  | .cmd w => issueWord w s
  | .rst => .next (applyReset s)

/-- One step on the host's queue: the oldest event leaves the queue and is taken. With nothing issued the block holds its
state (log 1, log 2). -/
def takeNext (s : State) : Result :=
  match s.pending with
  | [] => .next s
  | e :: rest => takeEvent e { s with pending := rest }

/-- The host issues one more word, ahead of the events still pending. -/
def issueFirst (w : CmdWord) (s : State) : State := { s with pending := .cmd w :: s.pending }

/-- The port events by which the host issues commands in order (20_memory.md R29). -/
def commandEvents (is : List Instr) : List PortEvent := is.map (fun i => .cmd (encode i))

end Sys2Proof.Machine
end

