-- ==== Sys2Proof/Machine/Step.lean ====
section
/-! DEFINITION. One step of the block (20_memory.md R28): the oldest pending event of the host is taken whole. -/

namespace Sys2Proof.Machine

/-- One step. -/
def step (s : State) : Host.Outcome State Fault Refusal := takeNext s

/-- The state in which the next step takes the command word `w` of `nbits` bits: the host has just issued it (log 1). -/
def State.withFetchWord (s : State) (nbits w : Nat) : State :=
  issueFirst (BitVec.ofNat 16 (w % 2 ^ nbits)) s

end Sys2Proof.Machine
end

