-- ==== Sys2Proof/Machine/Assembler.lean ====
section
/-! DEFINITION. The assembler: source lines (30_encoding.md R38), the expansion of the pseudo-commands (R39), and the
command words they give. What R38 and R39 leave open about the text is settled in log 14,
and the range operand in log 16. -/

namespace Sys2Proof.Machine

/-- The commands a source command stands for, "with nothing added and nothing reordered" (30_encoding.md R39). -/
def expand : SourceCommand → List Instr
  | .init => [.init]
  | .absorb n => [.absorb (BitVec.ofNat 8 n)]
  | .final => [.final]
  | .update ns => ns.map (fun n => .absorb (BitVec.ofNat 8 n))
  | .hash ns => .init :: (ns.map (fun n => .absorb (BitVec.ofNat 8 n)) ++ [.final])

/-- The words of a source command; an operand outside 0..255 "encodes nothing" (30_encoding.md R38). -/
def assembleSource (c : SourceCommand) : Option (List CmdWord) :=
  if c.wellFormed then some ((expand c).map encode) else none

/-- White space inside a line. -/
def isBlank (c : Char) : Bool := c == ' ' || c == '\t' || c == '\r'

/-- A text without white space at either end. -/
def trimBlanks (cs : List Char) : List Char :=
  ((cs.dropWhile isBlank).reverse.dropWhile isBlank).reverse

/-- Characters put in front of the first piece. -/
def onFirst (front : List Char) : List (List Char) → List (List Char)
  | [] => [front]
  | piece :: pieces => (front ++ piece) :: pieces

/-- The pieces of a text between the separators that stand in no quoted character and in no text in double quotes;
`inText` says that the text begins inside double quotes. A quoted character is taken as a whole, whichever character it is
(30_encoding.md R38), the single quote, the separator and the double quote among them. -/
def splitOutside (sep : Char) : Bool → List Char → List (List Char)
  | _, [] => [[]]
  | false, '\'' :: c :: '\'' :: cs => onFirst ['\'', c, '\''] (splitOutside sep false cs)
  | inText, c :: cs =>
    if inText = false ∧ c = sep then [] :: splitOutside sep false cs
    else onFirst [c] (splitOutside sep (if c = '"' then !inText else inText) cs)

/-- A decimal digit. -/
def decDigit (c : Char) : Option Nat :=
  if '0' ≤ c ∧ c ≤ '9' then some (c.toNat - '0'.toNat) else none

/-- A hexadecimal digit. -/
def hexDigit (c : Char) : Option Nat :=
  if '0' ≤ c ∧ c ≤ '9' then some (c.toNat - '0'.toNat)
  else if 'a' ≤ c ∧ c ≤ 'f' then some (c.toNat - 'a'.toNat + 10)
  else if 'A' ≤ c ∧ c ≤ 'F' then some (c.toNat - 'A'.toNat + 10)
  else none

/-- A number of at least one digit. -/
def readNumber (base : Nat) (digit : Char → Option Nat) : List Char → Option Nat
  | [] => none
  | c :: cs => (c :: cs).foldl
      (fun value c => match value, digit c with
        | some n, some d => some (base * n + d)
        | _, _ => none)
      (some 0)

/-- One operand: "0xNN hex, decimal 0..255, or a quoted ASCII char 'a'" (30_encoding.md R38). -/
def readOperand : List Char → Option Nat
  | ['\'', c, '\''] => if c.toNat < 128 then some c.toNat else none
  | '0' :: 'x' :: digits => readNumber 16 hexDigit digits
  | digits => readNumber 10 decDigit digits

/-- A text in double quotes: "the ASCII bytes of the text" (30_encoding.md R39). -/
def readText : List Char → Option (List Nat)
  | '"' :: rest =>
    match rest.reverse with
    | '"' :: inner =>
      if inner.all (fun c => c != '"' && c.toNat < 128) then some (inner.reverse.map Char.toNat) else none
    | _ => none
  | _ => none

/-- The two sides of the first `..` of a text. -/
def splitRange : List Char → Option (List Char × List Char)
  | [] => none
  | '.' :: '.' :: cs => some ([], cs)
  | c :: cs => (splitRange cs).map (fun sides => (c :: sides.1, sides.2))

/-- One entry of a pseudo-command's list: an operand, or the bytes from `lo` to `hi` where it reads `lo..hi`. R38 and R39
name no range; it is read from the line `UPDATE 0x00..0x3F` of 95_test_vectors.md P3, and its details are the model's
choice (DEDUCED and DESIGN CHOICE, log 16). -/
def readEntry (cs : List Char) : Option (List Nat) :=
  match readOperand cs with
  | some n => some [n]
  | none =>
    match splitRange cs with
    | none => none
    | some (lo, hi) =>
      match readOperand (trimBlanks lo), readOperand (trimBlanks hi) with
      | some a, some b => if a ≤ b then some (List.range' a (b + 1 - a)) else none
      | _, _ => none

/-- The operands of a pseudo-command: none, a text, or bytes between commas (30_encoding.md R39). An entry of the list may
be a range of bytes, which R39 does not name (log 16). -/
def readOperands (cs : List Char) : Option (List Nat) :=
  if cs = [] then some []
  else match readText cs with
    | some ns => some ns
    | none => ((splitOutside ',' false cs).mapM (fun piece => readEntry (trimBlanks piece))).map List.flatten

/-- What a line of a command program is. -/
inductive ParsedLine where
  /-- White space or a comment alone. -/
  | blank
  /-- A command. -/
  | command (c : SourceCommand)
  /-- No command of R38 or R39. -/
  | malformed
deriving DecidableEq, Repr

/-- The command of a mnemonic in capitals and its operand text (30_encoding.md R38, R39). -/
def readCommand (mnemonic operands : List Char) : Option SourceCommand :=
  if mnemonic = ['I', 'N', 'I', 'T'] then (if operands = [] then some .init else none)
  else if mnemonic = ['F', 'I', 'N', 'A', 'L'] then (if operands = [] then some .final else none)
  else if mnemonic = ['A', 'B', 'S', 'O', 'R', 'B'] then (readOperand operands).map .absorb
  else if mnemonic = ['U', 'P', 'D', 'A', 'T', 'E'] then (readOperands operands).map .update
  else if mnemonic = ['H', 'A', 'S', 'H'] then (readOperands operands).map .hash
  else none

/-- One line: the mnemonic is case-insensitive and `;` starts a comment (30_encoding.md R38). -/
def parseLine (line : List Char) : ParsedLine :=
  let body := trimBlanks ((splitOutside ';' false line).headD [])
  if body = [] then .blank
  else
    match readCommand ((body.takeWhile (fun c => !isBlank c)).map Char.toUpper)
        (trimBlanks (body.dropWhile (fun c => !isBlank c))) with
    | some c => .command c
    | none => .malformed

/-- The words of one line, or none where the line is an assembly error. -/
def assembleLine (line : List Char) : Option (List CmdWord) :=
  match parseLine line with
  | .blank => some []
  | .command c => assembleSource c
  | .malformed => none

/-- The words of a command program, "one command per line, executed top to bottom" (30_encoding.md R38). -/
def assembleLines (lines : List (List Char)) : Option (List CmdWord) :=
  (lines.mapM assembleLine).map List.flatten

end Sys2Proof.Machine
end

