-- ==== Sys2Proof/Machine/Sequence.lean ====
section
/-! DEFINITION. Several steps, one after the other (20_memory.md R29). -/

namespace Sys2Proof.Machine

/-- `k` steps, ending at the first one that stops. -/
def steps : Nat → State → Result
  | 0, s => .next s
  | k + 1, s =>
    match step s with
    | .next t => steps k t
    | .fault r => .fault r
    | .refused r => .refused r

end Sys2Proof.Machine
end

