-- ==== Sys2Proof/Machine/Blockwise.lean ====
section
/-! DEFINITION. The hash of a byte string block by block, as 43_controller.md R63 and R64 describe which block is
compressed with which counter and which flag. It speaks of no command and no buffer: the statements about command
sequences hold the controller against it. -/

namespace Sys2Proof.Machine

/-- The 64-bit byte counter as one number, `t1 * 2^32 + t0` (10_state.md R11). -/
def State.count (s : State) : Nat := s.t1.toNat * 2 ^ 32 + s.t0.toNat

/-- The low half of a counter value (10_state.md R11). -/
def countLow (n : Nat) : Word := BitVec.ofNat 32 n

/-- The high half of a counter value (10_state.md R11). -/
def countHigh (n : Nat) : Word := BitVec.ofNat 32 (n / 2 ^ 32)

/-- The 16 words of block `i` of a byte string, zeros past its end (20_memory.md R24, 43_controller.md R61). -/
def blockWords (x : List Byte) (i : Nat) : Vector Word 16 :=
  Vector.ofFn (fun k : Fin 16 =>
    le32 (x.getD (64 * i + 4 * k.val) 0) (x.getD (64 * i + 4 * k.val + 1) 0)
      (x.getD (64 * i + 4 * k.val + 2) 0) (x.getD (64 * i + 4 * k.val + 3) 0))

/-- How many blocks of a string of `n` bytes are compressed before the last one (43_controller.md R63). -/
def blocksBeforeLast (n : Nat) : Nat := (n - 1) / 64

/-- The chaining value after the first `c` blocks, compressed with flag 0 and counters 64, 128, ... (43_controller.md R64). -/
def chainAfter (x : List Byte) (c : Nat) : Vector Word 8 :=
  (List.range c).foldl
    (fun h i => compress h (blockWords x i) (countLow (64 * (i + 1))) (countHigh (64 * (i + 1))) 0)
    initialChaining

/-- The chaining value after the whole string: the last block has the all-ones flag and the counter `n`
(43_controller.md R64). -/
def hashChain (x : List Byte) : Vector Word 8 :=
  compress (chainAfter x (blocksBeforeLast x.length)) (blockWords x (blocksBeforeLast x.length))
    (countLow x.length) (countHigh x.length) 0xFFFFFFFF

end Sys2Proof.Machine
end

