-- ==== Sys2Proof/Machine/Ports.lean ====
section
/-! DEFINITION. The output ports (30_encoding.md R32, R37; 43_controller.md R62). Reading a port changes nothing, so each
is a function of the state. -/

namespace Sys2Proof.Machine

/-- The value of `phase` (10_state.md R15). -/
def Phase.code : Phase → BitVec 2
  | .uninit => 0
  | .absorbing => 1
  | .finalized => 2

/-- The value of `fault` (60_exceptions.md R70). -/
def FaultCode.code : FaultCode → BitVec 3
  | .noFault => 0
  | .illegalCommand => 1
  | .uninitialised => 2
  | .absorbAfterFinal => 3
  | .finalAfterFinal => 4
  | .counterOverflow => 5

/-- The `status` port (30_encoding.md R37). -/
def State.status (s : State) : BitVec 16 := (0 : BitVec 11) ++ s.fault.code ++ s.phase.code

/-- The digest bytes: `D[j]` is byte `j mod 4`, least significant first, of `h[j div 4]` (20_memory.md R25). -/
def digestBytes (h : Vector Word 8) : Vector Byte 32 :=
  Vector.ofFn (fun j : Fin 32 => (bytesLE h[j.val / 4])[j.val % 4])

/-- The `digest` port: a value "exactly when `phase = FINALIZED` and `fault = 0`", and none otherwise
(43_controller.md R62). -/
def State.digest (s : State) : Option (Vector Byte 32) :=
  if s.phase = .finalized ∧ s.fault = .noFault then some (digestBytes s.h) else none

end Sys2Proof.Machine
end

