-- ==== Sys2Proof/Safety.lean ====
section
/-! DEFINITION. What the statements say about runs: the invariant of the block, the fault a word raises, and which parts of
two states the host can tell apart. -/

namespace Sys2Proof.Machine

/-- The invariant every step keeps, from 43_controller.md R63 and 10_state.md R12: the buffer is canonical; while
ABSORBING the flag is 0, the counter is a multiple of 64, and an empty buffer means nothing has been absorbed since INIT;
in FINALIZED the flag is all-ones. -/
abbrev State.Inv (s : State) : Prop :=
  Memory.wf s.buf ∧
  (s.phase = .absorbing →
    s.f = 0 ∧ s.t0.toNat % 64 = 0 ∧
      (s.buflen = 0 → s.h = initialChaining ∧ s.t0 = 0 ∧ s.t1 = 0 ∧ s.buf = [])) ∧
  (s.phase = .finalized → s.f = 0xFFFFFFFF)

/-- The code a word raises in an unfaulted state: decode first, then the phase, then the counter (60_exceptions.md R70,
R71). -/
def faultRaised (w : CmdWord) (s : State) : FaultCode :=
  match decode w, s.phase with
  | .illegal _, _ => .illegalCommand
  | .instr .init, _ => .noFault
  | .instr (.absorb _), .uninit => .uninitialised
  | .instr (.absorb _), .finalized => .absorbAfterFinal
  | .instr (.absorb _), .absorbing =>
    if s.buflen.val = 64 ∧ 2 ^ 64 ≤ s.count + 64 then .counterOverflow else .noFault
  | .instr .final, .uninit => .uninitialised
  | .instr .final, .finalized => .finalAfterFinal
  | .instr .final, .absorbing =>
    if 2 ^ 64 ≤ s.count + s.buflen.val then .counterOverflow else .noFault

/-- Two states that differ at most in values the spec leaves unspecified or never reads: all data in UNINIT (10_state.md
R21), the stale bytes while ABSORBING (R14), and all data but the digest words in FINALIZED (43_controller.md R61). -/
def State.Agree (s s' : State) : Prop :=
  s.phase = s'.phase ∧ s.fault = s'.fault ∧ s.pending = s'.pending ∧
  (s.phase = .absorbing →
    s.h = s'.h ∧ s.t0 = s'.t0 ∧ s.t1 = s'.t1 ∧ s.f = s'.f ∧ s.buflen = s'.buflen ∧
      ∀ j : Fin 64, j.val < s.buflen.val → s.bufByte j = s'.bufByte j) ∧
  (s.phase = .finalized → s.h = s'.h)

/-- Two outcomes that agree: states that do, or the same stop. -/
def Agree : Result → Result → Prop
  | .next s, .next s' => s.Agree s'
  | .fault r, .fault r' => r = r'
  | .refused r, .refused r' => r = r'
  | _, _ => False

end Sys2Proof.Machine
end

