-- ==== Sys2Proof/Certificates/Slice0/Obligations.lean ====
section
/-! DEFINITION. The statements for the provers. Each docstring names the sentence of the spec it formalises, or says that
it is the model's choice and names the log entry. -/

open Sys2Proof Sys2Proof.Machine

/-! ## Words and commands -/

/-- The words of 95_test_vectors.md section 2.6, and two more at the ends of the data byte's range. -/
def Obligations.WrittenOutWordsDecode : Prop :=
  decode 0b0000000000000000#16 = .instr .init ∧
  decode 0b0000000000000001#16 = .instr (.absorb 0x00) ∧
  decode 0b0110000100000001#16 = .instr (.absorb 0x61) ∧
  decode 0b1111111100000001#16 = .instr (.absorb 0xFF) ∧
  decode 0b0000000000000010#16 = .instr .final ∧
  (∀ w ∈ ([0x0003, 0x0004, 0x0005, 0x0100, 0x0102, 0x00FD, 0x8003, 0xFFFF] : List CmdWord),
    ∃ r, decode w = .illegal r)

/-- R35: the decode table, row by row, and every other word is illegal. -/
def Obligations.DecodeFollowsTheTable : Prop :=
  ∀ w : CmdWord,
    (w &&& 0xFFFF = 0x0000 → decode w = .instr .init) ∧
    (w &&& 0x00FF = 0x0001 → decode w = .instr (.absorb (BitVec.ofNat 8 (w.toNat / 256)))) ∧
    (w &&& 0xFFFF = 0x0002 → decode w = .instr .final) ∧
    (w &&& 0xFFFF ≠ 0x0000 → w &&& 0x00FF ≠ 0x0001 → w &&& 0xFFFF ≠ 0x0002 → ∃ r, decode w = .illegal r)

/-- Decoding and encoding are inverse to one another (30_encoding.md sections 3 and 5): a command's word decodes to the
command, every operand kept, and a word that decodes to a command is that command's word. -/
def Obligations.DecodeAndEncodeAgree : Prop :=
  (∀ i : Instr, i.wellFormed = true → decode (encode i) = .instr i) ∧
  (∀ (w : CmdWord) (i : Instr), decode w = .instr i → encode i = w)

/-- "That gives 1 + 256 + 1 = 258 legal words and 65,278 illegal ones", which the spec marks as derived from its table
(30_encoding.md section 3). -/
def Obligations.LegalWordsAreTwoHundredFiftyEight : Prop :=
  (Finset.univ.filter (fun w : CmdWord => (decode w).isLegal = true)).card = 258 ∧
  (Finset.univ.filter (fun w : CmdWord => (decode w).isLegal = false)).card = 65278

/-- R36: which words are illegal, and that an illegal word raises IllegalCommand and changes nothing but `fault`. -/
def Obligations.IllegalWordOnlyLatchesItsFault : Prop :=
  (∀ w : CmdWord,
    (∃ r, decode w = .illegal r) ↔
      ((unpack w).op = 3 ∨ (unpack w).rsv ≠ 0 ∨ ((unpack w).op = 0 ∧ (unpack w).data ≠ 0) ∨
        ((unpack w).op = 2 ∧ (unpack w).data ≠ 0))) ∧
  (∀ (w : CmdWord) (s : State) (r : IllegalReason), s.fault = .noFault → decode w = .illegal r →
    issueWord w s = .next { s with fault := .illegalCommand })

/-! ## Steps and reset -/

/-- A step takes the host's oldest port event: a word, legal or not, is issued to the block, and one that decodes to a
command runs that command (20_memory.md sections 3 and 4). That the events wait in a queue is the model's own (log 1). -/
def Obligations.StepRunsTheDecodedCommand : Prop :=
  (∀ (s : State) (e : PortEvent) (rest : List PortEvent),
    s.pending = e :: rest → step s = takeEvent e { s with pending := rest }) ∧
  (∀ (s : State) (w : CmdWord) (rest : List PortEvent),
    s.pending = .cmd w :: rest → step s = issueWord w { s with pending := rest }) ∧
  (∀ (s : State) (w : CmdWord) (i : Instr) (rest : List PortEvent),
    s.pending = .cmd w :: rest → decode w = .instr i → step s = exec i { s with pending := rest }) ∧
  (∀ (s : State) (w : CmdWord) (i : Instr), decode w = .instr i → step (s.withFetchWord 16 w.toNat) = exec i s) ∧
  (∀ (w : CmdWord) (i : Instr), decode w = .instr i → decodeTableWord 16 w.toNat = some i)

/-- With nothing issued the block holds its state. The spec speaks of no step there: this is the model's choice (log 2). -/
def Obligations.IdleBlockHoldsItsState : Prop :=
  ∀ s : State, s.pending = [] → step s = .next s

/-- Reset is taken at any step, in any phase and with any fault latched (R81), and leaves UNINIT with no fault, whatever
the unspecified data are (R80); the ports then show status 0 and no digest (R37, R62). That the events issued after it
stay pending is the model's own choice (log 1). -/
def Obligations.ResetIsTakenAtAnyStep : Prop :=
  ∀ s : State, ∃ t, takeEvent .rst s = .next t ∧ t.phase = .uninit ∧ t.fault = .noFault ∧ t.pending = s.pending ∧
    t.status = 0 ∧ t.digest = none

/-- The two fields of the reset state that the spec gives values for (10_state.md section 5), and what the ports show. -/
def Obligations.ResetStateIsUninitialised : Prop :=
  State.reset.phase = .uninit ∧ State.reset.fault = .noFault ∧ State.reset.status = 0 ∧ State.reset.digest = none

/-! ## Faults -/

/-- R73: while `fault` is not 0 no command and no illegal word has a step, and reset, which does, clears `fault`; no other
event clears it. -/
def Obligations.FaultedBlockTakesNoCommand : Prop :=
  ∀ s : State, s.fault ≠ .noFault →
    (∀ (i : Instr) (t : State), exec i s ≠ .next t) ∧
    (∀ (w : CmdWord) (t : State), issueWord w s ≠ .next t) ∧
    (∀ (e : PortEvent) (t : State), takeEvent e s = .next t → e = .rst) ∧
    (∃ t, takeEvent .rst s = .next t ∧ t.fault = .noFault)

/-- The stop of a faulted block carries the latched code. That the stop is the interface's fault outcome is the model's
choice (log 3). -/
def Obligations.StopNamesTheLatchedFault : Prop :=
  ∀ s : State, s.fault ≠ .noFault →
    (∀ i : Instr, exec i s = .fault (.stopped s.fault)) ∧
    (∀ w : CmdWord, issueWord w s = .fault (.stopped s.fault))

/-- R72: a command that faults writes `fault` and nothing else; the code is in `status[4:2]` and the digest port is
invalid. -/
def Obligations.FaultsArePrecise : Prop :=
  ∀ (w : CmdWord) (s t : State), issueWord w s = .next t → t.fault ≠ .noFault →
    t.h = s.h ∧ t.t0 = s.t0 ∧ t.t1 = s.t1 ∧ t.f = s.f ∧ t.buf = s.buf ∧ t.buflen = s.buflen ∧ t.phase = s.phase ∧
    t.pending = s.pending ∧ t.draws = s.draws ∧ t.status.extractLsb' 2 3 = t.fault.code ∧ t.digest = none

/-- R70 and R71: the fault a word raises, by the order of the checks: decode, phase, counter. -/
def Obligations.OneFaultInTheOrderOfTheChecks : Prop :=
  (∀ (w : CmdWord) (s : State), s.fault = .noFault → ∃ t, issueWord w s = .next t ∧ t.fault = faultRaised w s) ∧
  (∀ (w : CmdWord) (s t : State), s.fault ≠ .noFault → issueWord w s ≠ .next t) ∧
  (FaultCode.noFault.code = 0 ∧ FaultCode.illegalCommand.code = 1 ∧ FaultCode.uninitialised.code = 2 ∧
    FaultCode.absorbAfterFinal.code = 3 ∧ FaultCode.finalAfterFinal.code = 4 ∧ FaultCode.counterOverflow.code = 5)

/-! ## The commands -/

/-- R59: INIT in any phase, every field it writes and every field it leaves. -/
def Obligations.InitFollowsItsRule : Prop :=
  ∀ s : State, s.fault = .noFault →
    ∃ t, exec .init s = .next t ∧
      t.h = #v[0x6B08E647, 0xBB67AE85, 0x3C6EF372, 0xA54FF53A, 0x510E527F, 0x9B05688C, 0x1F83D9AB, 0x5BE0CD19] ∧
      t.t0 = 0 ∧ t.t1 = 0 ∧ t.f = 0 ∧ (∀ j : Fin 64, t.bufByte j = 0) ∧ t.buflen = 0 ∧ t.phase = .absorbing ∧
      t.fault = s.fault ∧ t.pending = s.pending ∧ t.draws = s.draws

/-- INIT "reads no field of the state, so its result does not depend on what came before", and a second INIT changes
nothing more (43_controller.md section 2, 20_memory.md section 3). -/
def Obligations.InitForgetsThePast : Prop :=
  (∀ s s' : State, s.fault = .noFault → s'.fault = .noFault → s.pending = s'.pending → s.draws = s'.draws →
    exec .init s = exec .init s') ∧
  (∀ s t : State, exec .init s = .next t → exec .init t = .next t)

/-- R60: ABSORB in each phase, with room, with a full buffer, and past the counter's limit. Each case says what is
written and what is left. -/
def Obligations.AbsorbFollowsItsRule : Prop :=
  ∀ (d : Byte) (s : State), s.fault = .noFault →
    (s.phase = .uninit → exec (.absorb d) s = .next { s with fault := .uninitialised }) ∧
    (s.phase = .finalized → exec (.absorb d) s = .next { s with fault := .absorbAfterFinal }) ∧
    (∀ j : Fin 64, s.phase = .absorbing → s.buflen.val = j.val →
      ∃ t, exec (.absorb d) s = .next t ∧ t.buflen.val = j.val + 1 ∧ t.bufByte j = d ∧
        (∀ k : Fin 64, k ≠ j → t.bufByte k = s.bufByte k) ∧
        t.h = s.h ∧ t.t0 = s.t0 ∧ t.t1 = s.t1 ∧ t.f = s.f ∧ t.phase = s.phase ∧ t.fault = s.fault ∧
        t.pending = s.pending ∧ t.draws = s.draws) ∧
    (s.phase = .absorbing → s.buflen.val = 64 → 2 ^ 64 ≤ s.count + 64 →
      exec (.absorb d) s = .next { s with fault := .counterOverflow }) ∧
    (s.phase = .absorbing → s.buflen.val = 64 → s.count + 64 < 2 ^ 64 →
      ∃ t, exec (.absorb d) s = .next t ∧ t.count = s.count + 64 ∧
        t.h = compress s.h (messageWords s.buf) t.t0 t.t1 s.f ∧ t.buflen.val = 1 ∧ t.bufByte 0 = d ∧
        (∀ k : Fin 64, k ≠ 0 → t.bufByte k = s.bufByte k) ∧
        t.f = s.f ∧ t.phase = s.phase ∧ t.fault = s.fault ∧ t.pending = s.pending ∧ t.draws = s.draws)

/-- R61: FINAL in each phase and past the counter's limit. `buflen` afterwards is unspecified, so nothing is said of it
(log 7); `draws` is the model's own field. -/
def Obligations.FinalFollowsItsRule : Prop :=
  ∀ s : State, s.fault = .noFault →
    (s.phase = .uninit → exec .final s = .next { s with fault := .uninitialised }) ∧
    (s.phase = .finalized → exec .final s = .next { s with fault := .finalAfterFinal }) ∧
    (s.phase = .absorbing → 2 ^ 64 ≤ s.count + s.buflen.val →
      exec .final s = .next { s with fault := .counterOverflow }) ∧
    (s.phase = .absorbing → s.count + s.buflen.val < 2 ^ 64 →
      ∃ t, exec .final s = .next t ∧ t.count = s.count + s.buflen.val ∧ t.f = 0xFFFFFFFF ∧
        (∀ k : Fin 64, t.bufByte k = if k.val < s.buflen.val then s.bufByte k else 0) ∧
        t.h = compress s.h (messageWords t.buf) t.t0 t.t1 0xFFFFFFFF ∧ t.phase = .finalized ∧
        t.fault = s.fault ∧ t.pending = s.pending)

/-- R84: the ABSORB that fills the buffer leaves `h` and the counter as they were; the next command compresses the block,
an ABSORB with flag 0 and FINAL with the all-ones flag (10_state.md section 4 says the same of the next command). -/
def Obligations.FullBlockWaitsForTheNextCommand : Prop :=
  ∀ (d e : Byte) (s : State), s.fault = .noFault → s.phase = .absorbing → s.buflen.val = 63 → s.f = 0 →
    s.count + 64 < 2 ^ 64 →
    ∃ t, exec (.absorb d) s = .next t ∧ t.buflen.val = 64 ∧ t.h = s.h ∧ t.count = s.count ∧
      (∃ u, exec (.absorb e) t = .next u ∧ u.count = s.count + 64 ∧
        u.h = compress s.h (messageWords t.buf) u.t0 u.t1 0) ∧
      (∃ u, exec .final t = .next u ∧ u.count = s.count + 64 ∧
        u.h = compress s.h (messageWords t.buf) u.t0 u.t1 0xFFFFFFFF)

/-! ## The counter, the flag and the phase -/

/-- R57: `CTR_ADD` is the 64-bit sum, with its carry and its overflow, for every `k` in 0..64. -/
def Obligations.CtrAddIsTheWideSum : Prop :=
  (∀ (t0 t1 : Word) (k : Fin 65),
    (ctrAdd t0 t1 k).n0.toNat = (t0.toNat + k.val) % 2 ^ 32 ∧
    (ctrAdd t0 t1 k).n1.toNat = (t1.toNat + if (ctrAdd t0 t1 k).n0.toNat < k.val then 1 else 0) % 2 ^ 32 ∧
    ((ctrAdd t0 t1 k).ovf = true ↔ t1 = 0xFFFFFFFF ∧ (ctrAdd t0 t1 k).n0.toNat < k.val) ∧
    ((ctrAdd t0 t1 k).ovf = true ↔ 2 ^ 64 ≤ t1.toNat * 2 ^ 32 + t0.toNat + k.val) ∧
    ((ctrAdd t0 t1 k).ovf = false →
      (ctrAdd t0 t1 k).n1.toNat * 2 ^ 32 + (ctrAdd t0 t1 k).n0.toNat = t1.toNat * 2 ^ 32 + t0.toNat + k.val)) ∧
  ctrAdd 0xFFFFFFC0 0 64 = { n0 := 0x00000000, n1 := 0x00000001, ovf := false }

/-- R11: only the increment changes the counter, and INIT sets it to 0; the 64-bit value never wraps (43_controller.md
section 1). -/
def Obligations.CounterChangesOnlyByTheIncrement : Prop :=
  ∀ (i : Instr) (s t : State), exec i s = .next t →
    (t.t0 = s.t0 ∧ t.t1 = s.t1) ∨
    (i = .init ∧ t.t0 = 0 ∧ t.t1 = 0) ∨
    ((∃ d, i = .absorb d) ∧ s.buflen.val = 64 ∧ t.count = s.count + 64) ∨
    (i = .final ∧ t.count = s.count + s.buflen.val)

/-- The overflow fault is possible only at `t = 2^64 - 64` with a full buffer: the sentence of 43_controller.md section 1
that the spec marks as derived. The invariant rules out counters that are no multiple of 64. -/
def Obligations.OverflowOnlyAtTheLimit : Prop :=
  ∀ (i : Instr) (s t : State), s.Inv → exec i s = .next t →
    (t.fault = .counterOverflow ↔
      i ≠ .init ∧ s.phase = .absorbing ∧ s.buflen.val = 64 ∧ s.count = 2 ^ 64 - 64)

/-- "Only INIT writes 0 to it and only FINAL writes all-ones" (10_state.md section 2, of the flag). -/
def Obligations.FlagIsWrittenByInitAndFinalOnly : Prop :=
  ∀ (i : Instr) (s t : State), exec i s = .next t → t.f ≠ s.f →
    (i = .init ∧ t.f = 0) ∨ (i = .final ∧ t.f = 0xFFFFFFFF)

/-- The lifecycle: "INIT sets ABSORBING. FINAL sets FINALIZED", and nothing but these and reset moves the phase
(10_state.md section 3). -/
def Obligations.PhaseMovesOnlyByInitFinalAndReset : Prop :=
  (∀ (i : Instr) (s t : State), exec i s = .next t → t.phase ≠ s.phase →
    (i = .init ∧ t.phase = .absorbing) ∨ (i = .final ∧ s.phase = .absorbing ∧ t.phase = .finalized)) ∧
  (∀ (e : PortEvent) (s t : State), takeEvent e s = .next t → t.phase = .uninit → s.phase ≠ .uninit → e = .rst)

/-! ## Primitives and tables -/

/-- R4: bit `k` of `rotr(x, n)` is bit `(k + n) mod 32` of `x`, and the value is the rule's formula. -/
def Obligations.RotrMovesEachBit : Prop :=
  ∀ (x : Word) (n : Nat), 0 < n → n < 32 →
    (∀ k, k < 32 → (rotr x n).getLsbD k = x.getLsbD ((k + n) % 32)) ∧
    (rotr x n).toNat = ((x.toNat >>> n) ||| (x.toNat <<< (32 - n))) % 2 ^ 32

/-- R5 and R6: the value of `LE32`, the bytes of `bytesLE`, and that each undoes the other. -/
def Obligations.WordAndBytesAreInverse : Prop :=
  (∀ b0 b1 b2 b3 : Byte,
    (le32 b0 b1 b2 b3).toNat = b0.toNat + b1.toNat * 2 ^ 8 + b2.toNat * 2 ^ 16 + b3.toNat * 2 ^ 24 ∧
    bytesLE (le32 b0 b1 b2 b3) = #v[b0, b1, b2, b3]) ∧
  (∀ w : Word,
    (∀ i : Fin 4, (bytesLE w)[i].toNat = w.toNat / 2 ^ (8 * i.val) % 256) ∧
    le32 (bytesLE w)[0] (bytesLE w)[1] (bytesLE w)[2] (bytesLE w)[3] = w)

/-- R24: `m[k]` is the four bytes at `4k`, the first of them least significant. -/
def Obligations.MessageWordsAreLittleEndian : Prop :=
  ∀ (s : State) (k : Fin 16) (j0 j1 j2 j3 : Fin 64),
    j0.val = 4 * k.val → j1.val = 4 * k.val + 1 → j2.val = 4 * k.val + 2 → j3.val = 4 * k.val + 3 →
    (messageWords s.buf)[k].toNat =
      (s.bufByte j0).toNat + (s.bufByte j1).toNat * 2 ^ 8 + (s.bufByte j2).toNat * 2 ^ 16 +
        (s.bufByte j3).toNat * 2 ^ 24

/-- One byte written to the buffer is read back there and nowhere else, and the buffer stays in its canonical form
(20_memory.md section 1; the form is the model's own, log 8). -/
def Obligations.BufferWriteIsOneByte : Prop :=
  ∀ (m : Memory) (a : Fin 64) (b : Byte),
    (∀ k : Fin 64, memRead (memWrite m a b) k.val = if k = a then b else memRead m k.val) ∧
    (Memory.wf m → Memory.wf (memWrite m a b) ∧
      (memRead m a.val = b → memWrite m a b = m))

/-- R43 and R44: the parameter word with its fields, and the flag's value on the last block. -/
def Obligations.ParameterWordAndFlagValue : Prop :=
  param = 0x01010020 ∧ param.extractLsb' 24 8 = 0x01 ∧ param.extractLsb' 16 8 = 0x01 ∧
  param.extractLsb' 8 8 = 0 ∧ param.extractLsb' 0 8 = BitVec.ofNat 8 Config.digestLen ∧ flagFinal = 0xFFFFFFFF

/-- Every row of SIGMA is a permutation of 0..15, and the two words of one application are distinct, which the spec marks
as derived from its table (40_tables.md section 2). -/
def Obligations.SigmaRowsArePermutations : Prop :=
  (∀ r : Fin 10, Function.Bijective (fun k : Fin 16 => sigma[r][k])) ∧
  (∀ (r : Fin 10) (i : Fin 8), sigma[r][2 * i.val] ≠ sigma[r][2 * i.val + 1])

/-! ## G and COMPRESS -/

/-- R47: the eight steps of G, with rotations by 16, 12, 8 and 7 as Lean's own `rotateRight`. -/
def Obligations.MixRunsItsEightSteps : Prop :=
  ∀ a b c d mx my a1 b1 c1 d1 a2 b2 c2 d2 : Word,
    a1 = a + b + mx → d1 = (d ^^^ a1).rotateRight 16 → c1 = c + d1 → b1 = (b ^^^ c1).rotateRight 12 →
    a2 = a1 + b1 + my → d2 = (d1 ^^^ a2).rotateRight 8 → c2 = c1 + d2 → b2 = (b1 ^^^ c2).rotateRight 7 →
    mixG a b c d mx my = { a := a2, b := b2, c := c2, d := d2 }

/-- For fixed message words G is a bijection on its four words, which the spec marks as derived (41_mixing.md). -/
def Obligations.MixIsABijection : Prop :=
  ∀ mx my : Word, Function.Bijective (fun q : Quad => mixG q.a q.b q.c q.d mx my)

/-- R48: an application of G writes its four results at its four positions, and leaves the other twelve words. -/
def Obligations.MixWorksInPlace : Prop :=
  ∀ (i : Fin 8) (mx my : Word) (v : Vector Word 16),
    (applyG group[i] mx my v)[group[i].pa] =
      (mixG v[group[i].pa] v[group[i].pb] v[group[i].pc] v[group[i].pd] mx my).a ∧
    (applyG group[i] mx my v)[group[i].pb] =
      (mixG v[group[i].pa] v[group[i].pb] v[group[i].pc] v[group[i].pd] mx my).b ∧
    (applyG group[i] mx my v)[group[i].pc] =
      (mixG v[group[i].pa] v[group[i].pb] v[group[i].pc] v[group[i].pd] mx my).c ∧
    (applyG group[i] mx my v)[group[i].pd] =
      (mixG v[group[i].pa] v[group[i].pb] v[group[i].pc] v[group[i].pd] mx my).d ∧
    (∀ k : Fin 16, k ≠ group[i].pa → k ≠ group[i].pb → k ≠ group[i].pc → k ≠ group[i].pd →
      (applyG group[i] mx my v)[k] = v[k]) ∧
    [group[i].pa, group[i].pb, group[i].pc, group[i].pd].Nodup

/-- R51 and R52: the sixteen words before the first round. -/
def Obligations.WorkingVectorIsSeeded : Prop :=
  ∀ (h : Vector Word 8) (t0 t1 f : Word),
    (∀ i : Fin 8, (workingVector h t0 t1 f)[i.val] = h[i]) ∧
    (∀ i : Fin 4, (workingVector h t0 t1 f)[i.val + 8] = iv[i.val]) ∧
    (workingVector h t0 t1 f)[12] = iv[4] ^^^ t0 ∧ (workingVector h t0 t1 f)[13] = iv[5] ^^^ t1 ∧
    (workingVector h t0 t1 f)[14] = iv[6] ^^^ f ∧ (workingVector h t0 t1 f)[15] = iv[7]

/-- R53, R54 and R55: the eighty applications in the order `(r, i)` on the positions of the table, then the fold. -/
def Obligations.CompressRunsEightyApplications : Prop :=
  (∀ (h : Vector Word 8) (m : Vector Word 16) (t0 t1 f : Word) (i : Fin 8),
    let v := ((List.finRange 10).flatMap (fun r => (List.finRange 8).map (fun i => (r, i)))).foldl
      (fun v (ri : Fin 10 × Fin 8) =>
        applyG group[ri.2] m[sigma[ri.1][2 * ri.2.val]] m[sigma[ri.1][2 * ri.2.val + 1]] v)
      (workingVector h t0 t1 f)
    (compress h m t0 t1 f)[i] = h[i] ^^^ v[i.val] ^^^ v[i.val + 8]) ∧
  group = #v[⟨0, 4, 8, 12⟩, ⟨1, 5, 9, 13⟩, ⟨2, 6, 10, 14⟩, ⟨3, 7, 11, 15⟩,
    ⟨0, 5, 10, 15⟩, ⟨1, 6, 11, 12⟩, ⟨2, 7, 8, 13⟩, ⟨3, 4, 9, 14⟩]

/-- "Running them in any order ... gives the same `v`", of the four column applications and of the four diagonal ones,
which the spec marks as derived (42_compression.md). -/
def Obligations.ColumnsAndDiagonalsInAnyOrder : Prop :=
  ∀ (m v : Vector Word 16) (r : Fin 10) (order : List (Fin 8)),
    (order.Perm [0, 1, 2, 3] → order.foldl (application m r) v = [0, 1, 2, 3].foldl (application m r) v) ∧
    (order.Perm [4, 5, 6, 7] → order.foldl (application m r) v = [4, 5, 6, 7].foldl (application m r) v)

/-! ## Ports -/

/-- R62 and R25: the digest port has a value exactly in FINALIZED with no fault, and its byte `j` is byte `j mod 4` of
`h[j div 4]`. -/
def Obligations.DigestPortAfterFinalOnly : Prop :=
  (∀ s : State, s.digest.isSome = true ↔ s.phase = .finalized ∧ s.fault = .noFault) ∧
  (∀ (s : State) (x : Vector Byte 32) (j : Fin 32), s.digest = some x →
    x[j].toNat = s.h[j.val / 4].toNat / 2 ^ (8 * (j.val % 4)) % 256)

/-- R37: the bits of the status word, with the number of each phase and of each fault. -/
def Obligations.StatusWordShowsPhaseAndFault : Prop :=
  (Phase.uninit.code = 0 ∧ Phase.absorbing.code = 1 ∧ Phase.finalized.code = 2) ∧
  (FaultCode.noFault.code = 0 ∧ FaultCode.illegalCommand.code = 1 ∧ FaultCode.uninitialised.code = 2 ∧
    FaultCode.absorbAfterFinal.code = 3 ∧ FaultCode.finalAfterFinal.code = 4 ∧ FaultCode.counterOverflow.code = 5) ∧
  (∀ s : State,
    s.status.extractLsb' 5 11 = 0 ∧ s.status.extractLsb' 2 3 = s.fault.code ∧
    s.status.extractLsb' 0 2 = s.phase.code ∧ s.phase.code ≠ 3 ∧ s.fault.code.toNat ≤ 5 ∧
    s.status.toNat = 4 * s.fault.code.toNat + s.phase.code.toNat)

/-! ## The assembler -/

/-- The words of each source command: operands outside 0..255 encode nothing, and the pseudo-commands expand with nothing
added and nothing reordered, so that splitting an UPDATE changes no word (30_encoding.md section 5). -/
def Obligations.SourceCommandsAssemble : Prop :=
  assembleSource .init = some [0x0000] ∧ assembleSource .final = some [0x0002] ∧
  (∀ n : Nat, n < 256 → assembleSource (.absorb n) = some [BitVec.ofNat 16 (n * 256 + 1)]) ∧
  (∀ n : Nat, 256 ≤ n → assembleSource (.absorb n) = none) ∧
  (∀ ns : List Nat, (∀ n ∈ ns, n < 256) →
    assembleSource (.update ns) = some (ns.map (fun n => BitVec.ofNat 16 (n * 256 + 1))) ∧
    assembleSource (.hash ns) = some (0x0000 :: (ns.map (fun n => BitVec.ofNat 16 (n * 256 + 1)) ++ [0x0002]))) ∧
  (∀ ns ms : List Nat, expand (.update (ns ++ ms)) = expand (.update ns) ++ expand (.update ms))

/-- A quoted character is an operand whichever ASCII character it is, the quotes, `;` and `,` among them: alone, before a
comment, and in the list of an UPDATE (30_encoding.md section 5). How the text is cut into pieces is settled in log 14. -/
def Obligations.QuotedCharactersAssemble : Prop :=
  (∀ c : Char, c.toNat < 128 →
    assembleLine ("ABSORB '".toList ++ c :: ['\'']) = some [BitVec.ofNat 16 (c.toNat * 256 + 1)]) ∧
  (∀ (c : Char) (comment : List Char), c.toNat < 128 →
    assembleLine ("ABSORB '".toList ++ c :: "' ;".toList ++ comment) = some [BitVec.ofNat 16 (c.toNat * 256 + 1)]) ∧
  (∀ c d : Char, c.toNat < 128 → d.toNat < 128 →
    assembleLine ("UPDATE '".toList ++ c :: "', '".toList ++ d :: ['\'']) =
      some [BitVec.ofNat 16 (c.toNat * 256 + 1), BitVec.ofNat 16 (d.toNat * 256 + 1)])

/-! ## Whole-machine statements -/

/-- The invariant holds at reset. Its clause on the buffer rests on the model's choice of an empty buffer (log 5). -/
def Obligations.ResetMeetsTheInvariant : Prop := State.reset.Inv

/-- Every step keeps the invariant: a command, an illegal word, a reset or an idle step. It is read from 43_controller.md
section 4 and 10_state.md section 2, with the buffer's canonical form (log 8). -/
def Obligations.EveryStepKeepsTheInvariant : Prop :=
  ∀ s t : State, s.Inv → step s = .next t → t.Inv

/-- The invariants of 43_controller.md section 4, which the spec marks as derived: after INIT and `n` ABSORBs the counter
holds the bytes of the completed compressions, the buffer the rest, and `h` the chain of the blocks compressed so far. -/
def Obligations.AbsorbedBytesAreCountedAndBuffered : Prop :=
  ∀ (s : State) (x : List Byte) (rest : List PortEvent), s.fault = .noFault → x.length ≤ 2 ^ 64 →
    s.pending = commandEvents (.init :: x.map .absorb) ++ rest →
    ∃ t : State, steps (x.length + 1) s = .next t ∧
      t.phase = .absorbing ∧ t.fault = .noFault ∧ t.pending = rest ∧ t.f = 0 ∧
      (t.buflen.val = 0 ↔ x.length = 0) ∧ (1 ≤ x.length → t.buflen.val = (x.length - 1) % 64 + 1) ∧
      t.count = 64 * blocksBeforeLast x.length ∧ t.count + t.buflen.val = x.length ∧
      t.h = chainAfter x (blocksBeforeLast x.length) ∧
      (∀ j : Fin 64, j.val < t.buflen.val → t.bufByte j = x.getD (64 * blocksBeforeLast x.length + j.val) 0)

/-- The hash through the ports: INIT, the bytes of any string within the counter's limit, and FINAL, from any unfaulted
state, leave the digest of the block-by-block hash on the port. The counters and flags of the blocks are those of
43_controller.md section 4, which the spec marks as derived. -/
def Obligations.DigestIsTheBlockwiseHash : Prop :=
  ∀ (s : State) (x : List Byte) (rest : List PortEvent), s.fault = .noFault → x.length < 2 ^ 64 →
    s.pending = commandEvents (.init :: (x.map .absorb ++ [.final])) ++ rest →
    ∃ t : State, steps (x.length + 2) s = .next t ∧
      t.digest = some (digestBytes (hashChain x)) ∧ t.status = 2 ∧ t.count = x.length ∧ t.f = 0xFFFFFFFF ∧
      t.pending = rest

/-- No unspecified value ever shows: two states that differ only in values the spec leaves unspecified or never reads show
the same ports, and step to such states again, or stop alike (10_state.md sections 2 and 5, 70_reset_and_hazards.md
section 2). It holds for every value of the free values (log 6, log 7). -/
def Obligations.UnspecifiedValuesNeverShow : Prop :=
  ∀ s s' : State, s.Agree s' →
    s.status = s'.status ∧ s.digest = s'.digest ∧ Agree (step s) (step s')
end

