-- ==== Sys2Proof/Laws/State.lean ====
section
/-! SUPPORT. What each named update of the state leaves in each field. -/

namespace Sys2Proof.Machine

variable (s : State)

@[simp] theorem latchFault_h (c : FaultCode) : (latchFault c s).h = s.h := rfl
@[simp] theorem latchFault_t0 (c : FaultCode) : (latchFault c s).t0 = s.t0 := rfl
@[simp] theorem latchFault_t1 (c : FaultCode) : (latchFault c s).t1 = s.t1 := rfl
@[simp] theorem latchFault_f (c : FaultCode) : (latchFault c s).f = s.f := rfl
@[simp] theorem latchFault_buf (c : FaultCode) : (latchFault c s).buf = s.buf := rfl
@[simp] theorem latchFault_buflen (c : FaultCode) : (latchFault c s).buflen = s.buflen := rfl
@[simp] theorem latchFault_phase (c : FaultCode) : (latchFault c s).phase = s.phase := rfl
@[simp] theorem latchFault_fault (c : FaultCode) : (latchFault c s).fault = c := rfl
@[simp] theorem latchFault_pending (c : FaultCode) : (latchFault c s).pending = s.pending := rfl
@[simp] theorem latchFault_draws (c : FaultCode) : (latchFault c s).draws = s.draws := rfl

@[simp] theorem takeCount_h (c : CtrSum) : (takeCount c s).h = s.h := rfl
@[simp] theorem takeCount_t0 (c : CtrSum) : (takeCount c s).t0 = c.n0 := rfl
@[simp] theorem takeCount_t1 (c : CtrSum) : (takeCount c s).t1 = c.n1 := rfl
@[simp] theorem takeCount_f (c : CtrSum) : (takeCount c s).f = s.f := rfl
@[simp] theorem takeCount_buf (c : CtrSum) : (takeCount c s).buf = s.buf := rfl
@[simp] theorem takeCount_buflen (c : CtrSum) : (takeCount c s).buflen = s.buflen := rfl
@[simp] theorem takeCount_phase (c : CtrSum) : (takeCount c s).phase = s.phase := rfl
@[simp] theorem takeCount_fault (c : CtrSum) : (takeCount c s).fault = s.fault := rfl
@[simp] theorem takeCount_pending (c : CtrSum) : (takeCount c s).pending = s.pending := rfl
@[simp] theorem takeCount_draws (c : CtrSum) : (takeCount c s).draws = s.draws := rfl

@[simp] theorem raiseFlag_h : (raiseFlag s).h = s.h := rfl
@[simp] theorem raiseFlag_t0 : (raiseFlag s).t0 = s.t0 := rfl
@[simp] theorem raiseFlag_t1 : (raiseFlag s).t1 = s.t1 := rfl
@[simp] theorem raiseFlag_f : (raiseFlag s).f = flagFinal := rfl
@[simp] theorem raiseFlag_buf : (raiseFlag s).buf = s.buf := rfl
@[simp] theorem raiseFlag_buflen : (raiseFlag s).buflen = s.buflen := rfl
@[simp] theorem raiseFlag_phase : (raiseFlag s).phase = s.phase := rfl
@[simp] theorem raiseFlag_fault : (raiseFlag s).fault = s.fault := rfl
@[simp] theorem raiseFlag_pending : (raiseFlag s).pending = s.pending := rfl
@[simp] theorem raiseFlag_draws : (raiseFlag s).draws = s.draws := rfl

@[simp] theorem appendByte_h (j : Fin 64) (d : Byte) : (appendByte j d s).h = s.h := rfl
@[simp] theorem appendByte_t0 (j : Fin 64) (d : Byte) : (appendByte j d s).t0 = s.t0 := rfl
@[simp] theorem appendByte_t1 (j : Fin 64) (d : Byte) : (appendByte j d s).t1 = s.t1 := rfl
@[simp] theorem appendByte_f (j : Fin 64) (d : Byte) : (appendByte j d s).f = s.f := rfl
@[simp] theorem appendByte_buf (j : Fin 64) (d : Byte) : (appendByte j d s).buf = memWrite s.buf j d := rfl
@[simp] theorem appendByte_buflen (j : Fin 64) (d : Byte) : (appendByte j d s).buflen = j.succ := rfl
@[simp] theorem appendByte_phase (j : Fin 64) (d : Byte) : (appendByte j d s).phase = s.phase := rfl
@[simp] theorem appendByte_fault (j : Fin 64) (d : Byte) : (appendByte j d s).fault = s.fault := rfl
@[simp] theorem appendByte_pending (j : Fin 64) (d : Byte) : (appendByte j d s).pending = s.pending := rfl
@[simp] theorem appendByte_draws (j : Fin 64) (d : Byte) : (appendByte j d s).draws = s.draws := rfl

@[simp] theorem padTail_h : (padTail s).h = s.h := rfl
@[simp] theorem padTail_t0 : (padTail s).t0 = s.t0 := rfl
@[simp] theorem padTail_t1 : (padTail s).t1 = s.t1 := rfl
@[simp] theorem padTail_f : (padTail s).f = s.f := rfl
@[simp] theorem padTail_buf : (padTail s).buf = memWriteAll s.buf (tailAddresses s.buflen) (fun _ => 0) := rfl
@[simp] theorem padTail_buflen : (padTail s).buflen = s.buflen := rfl
@[simp] theorem padTail_phase : (padTail s).phase = s.phase := rfl
@[simp] theorem padTail_fault : (padTail s).fault = s.fault := rfl
@[simp] theorem padTail_pending : (padTail s).pending = s.pending := rfl
@[simp] theorem padTail_draws : (padTail s).draws = s.draws := rfl

@[simp] theorem compressBlock_h : (compressBlock s).h = compress s.h (messageWords s.buf) s.t0 s.t1 s.f := rfl
@[simp] theorem compressBlock_t0 : (compressBlock s).t0 = s.t0 := rfl
@[simp] theorem compressBlock_t1 : (compressBlock s).t1 = s.t1 := rfl
@[simp] theorem compressBlock_f : (compressBlock s).f = s.f := rfl
@[simp] theorem compressBlock_buf : (compressBlock s).buf = s.buf := rfl
@[simp] theorem compressBlock_buflen : (compressBlock s).buflen = s.buflen := rfl
@[simp] theorem compressBlock_phase : (compressBlock s).phase = s.phase := rfl
@[simp] theorem compressBlock_fault : (compressBlock s).fault = s.fault := rfl
@[simp] theorem compressBlock_pending : (compressBlock s).pending = s.pending := rfl
@[simp] theorem compressBlock_draws : (compressBlock s).draws = s.draws := rfl

@[simp] theorem startHash_h : (startHash s).h = initialChaining := rfl
@[simp] theorem startHash_t0 : (startHash s).t0 = 0 := rfl
@[simp] theorem startHash_t1 : (startHash s).t1 = 0 := rfl
@[simp] theorem startHash_f : (startHash s).f = 0 := rfl
@[simp] theorem startHash_buf : (startHash s).buf = [] := rfl
@[simp] theorem startHash_buflen : (startHash s).buflen = 0 := rfl
@[simp] theorem startHash_phase : (startHash s).phase = .absorbing := rfl
@[simp] theorem startHash_fault : (startHash s).fault = s.fault := rfl
@[simp] theorem startHash_pending : (startHash s).pending = s.pending := rfl
@[simp] theorem startHash_draws : (startHash s).draws = s.draws := rfl

@[simp] theorem finishHash_h : (finishHash s).h = s.h := rfl
@[simp] theorem finishHash_t0 : (finishHash s).t0 = s.t0 := rfl
@[simp] theorem finishHash_t1 : (finishHash s).t1 = s.t1 := rfl
@[simp] theorem finishHash_f : (finishHash s).f = s.f := rfl
@[simp] theorem finishHash_buf : (finishHash s).buf = s.buf := rfl
@[simp] theorem finishHash_buflen : (finishHash s).buflen = Config.freeLength s.draws := rfl
@[simp] theorem finishHash_phase : (finishHash s).phase = .finalized := rfl
@[simp] theorem finishHash_fault : (finishHash s).fault = s.fault := rfl
@[simp] theorem finishHash_pending : (finishHash s).pending = s.pending := rfl
@[simp] theorem finishHash_draws : (finishHash s).draws = s.draws + 1 := rfl

@[simp] theorem applyReset_h : (applyReset s).h = Vector.ofFn (fun i : Fin 8 => Config.freeWord s.draws i.val) := rfl
@[simp] theorem applyReset_t0 : (applyReset s).t0 = Config.freeWord s.draws 8 := rfl
@[simp] theorem applyReset_t1 : (applyReset s).t1 = Config.freeWord s.draws 9 := rfl
@[simp] theorem applyReset_f : (applyReset s).f = Config.freeWord s.draws 10 := rfl
@[simp] theorem applyReset_buf : (applyReset s).buf = memWriteAll [] (List.finRange 64) (fun j => Config.freeByte s.draws j.val) := rfl
@[simp] theorem applyReset_buflen : (applyReset s).buflen = Config.freeLength s.draws := rfl
@[simp] theorem applyReset_phase : (applyReset s).phase = .uninit := rfl
@[simp] theorem applyReset_fault : (applyReset s).fault = .noFault := rfl
@[simp] theorem applyReset_pending : (applyReset s).pending = s.pending := rfl
@[simp] theorem applyReset_draws : (applyReset s).draws = s.draws + 1 := rfl

@[simp] theorem issueFirst_h (w : CmdWord) : (issueFirst w s).h = s.h := rfl
@[simp] theorem issueFirst_t0 (w : CmdWord) : (issueFirst w s).t0 = s.t0 := rfl
@[simp] theorem issueFirst_t1 (w : CmdWord) : (issueFirst w s).t1 = s.t1 := rfl
@[simp] theorem issueFirst_f (w : CmdWord) : (issueFirst w s).f = s.f := rfl
@[simp] theorem issueFirst_buf (w : CmdWord) : (issueFirst w s).buf = s.buf := rfl
@[simp] theorem issueFirst_buflen (w : CmdWord) : (issueFirst w s).buflen = s.buflen := rfl
@[simp] theorem issueFirst_phase (w : CmdWord) : (issueFirst w s).phase = s.phase := rfl
@[simp] theorem issueFirst_fault (w : CmdWord) : (issueFirst w s).fault = s.fault := rfl
@[simp] theorem issueFirst_pending (w : CmdWord) : (issueFirst w s).pending = .cmd w :: s.pending := rfl
@[simp] theorem issueFirst_draws (w : CmdWord) : (issueFirst w s).draws = s.draws := rfl

end Sys2Proof.Machine
end

