-- ==== Sys2Proof/Laws/Control.lean ====
section
/-! SUPPORT. What each shared operation, each command and a step can end in: one inversion lemma each. -/

namespace Sys2Proof.Machine

theorem unlessFaulted_running {s : State} (h : s.fault = .noFault) (go : Result) : unlessFaulted s go = go := if_pos h

theorem unlessFaulted_stopped {s : State} (h : s.fault ≠ .noFault) (go : Result) :
    unlessFaulted s go = .fault (.stopped s.fault) := if_neg h

/-- A next state behind the fault check comes from an unfaulted state. -/
theorem unlessFaulted_next {s t : State} {go : Result} (h : unlessFaulted s go = .next t) :
    s.fault = .noFault ∧ go = .next t := by
  by_cases hs : s.fault = .noFault
  · exact ⟨hs, by rwa [unlessFaulted_running hs] at h⟩
  · rw [unlessFaulted_stopped hs] at h; cases h

theorem whileAbsorbing_absorbing {s : State} (h : s.phase = .absorbing) (c : FaultCode) (go : Result) :
    whileAbsorbing s c go = go := by
  simp [whileAbsorbing, h]

/-- A next state behind the phase check is the fault of the phase, or comes from ABSORBING. -/
theorem whileAbsorbing_next {s t : State} {c : FaultCode} {go : Result} (h : whileAbsorbing s c go = .next t) :
    (s.phase = .uninit ∧ t = latchFault .uninitialised s) ∨ (s.phase = .finalized ∧ t = latchFault c s) ∨
    (s.phase = .absorbing ∧ go = .next t) := by
  unfold whileAbsorbing at h
  split at h
  · next p => exact .inl ⟨p, (Host.Outcome.next.inj h).symm⟩
  · next p => exact .inr (.inl ⟨p, (Host.Outcome.next.inj h).symm⟩)
  · next p => exact .inr (.inr ⟨p, h⟩)

theorem counting_overflow {k : Fin 65} {s : State} (h : (ctrAdd s.t0 s.t1 k).ovf = true) (go : State → Result) :
    counting k s go = raiseFault .counterOverflow s := by
  simp [counting, h]

theorem counting_fits {k : Fin 65} {s : State} (h : (ctrAdd s.t0 s.t1 k).ovf = false) (go : State → Result) :
    counting k s go = go (takeCount (ctrAdd s.t0 s.t1 k) s) := by
  simp [counting, h]

/-- A next state behind the counter is the overflow fault, or comes from the counted state. -/
theorem counting_next {k : Fin 65} {s t : State} {go : State → Result} (h : counting k s go = .next t) :
    ((ctrAdd s.t0 s.t1 k).ovf = true ∧ t = latchFault .counterOverflow s) ∨
    ((ctrAdd s.t0 s.t1 k).ovf = false ∧ go (takeCount (ctrAdd s.t0 s.t1 k) s) = .next t) := by
  unfold counting at h
  cases o : (ctrAdd s.t0 s.t1 k).ovf with
  | true => exact .inl ⟨rfl, by simpa [o, raiseFault] using h.symm⟩
  | false => exact .inr ⟨rfl, by simpa [o] using h⟩

/-- Everything INIT can do. -/
theorem exec_init_next {s t : State} (h : exec .init s = .next t) : s.fault = .noFault ∧ t = startHash s := by
  obtain ⟨hf, h⟩ := unlessFaulted_next h
  exact ⟨hf, (Host.Outcome.next.inj h).symm⟩

/-- Everything ABSORB can do. -/
theorem exec_absorb_next {d : Byte} {s t : State} (h : exec (.absorb d) s = .next t) : s.fault = .noFault ∧
    ((s.phase = .uninit ∧ t = latchFault .uninitialised s) ∨
     (s.phase = .finalized ∧ t = latchFault .absorbAfterFinal s) ∨
     (s.phase = .absorbing ∧ (∃ j : Fin 64, s.buflen.val = j.val ∧ t = appendByte j d s)) ∨
     (s.phase = .absorbing ∧ s.buflen.val = 64 ∧ (ctrAdd s.t0 s.t1 64).ovf = true ∧
       t = latchFault .counterOverflow s) ∨
     (s.phase = .absorbing ∧ s.buflen.val = 64 ∧ (ctrAdd s.t0 s.t1 64).ovf = false ∧
       t = appendByte 0 d (compressBlock (takeCount (ctrAdd s.t0 s.t1 64) s)))) := by
  obtain ⟨hf, h⟩ := unlessFaulted_next h
  refine ⟨hf, ?_⟩
  rcases whileAbsorbing_next h with u | u | ⟨p, h⟩
  · exact .inl u
  · exact .inr (.inl u)
  · split at h
    · next room => exact .inr (.inr (.inl ⟨p, ⟨s.buflen.val, room⟩, rfl, (Host.Outcome.next.inj h).symm⟩))
    · next full =>
      have b : s.buflen.val = 64 := by omega
      rcases counting_next h with ⟨o, e⟩ | ⟨o, e⟩
      · exact .inr (.inr (.inr (.inl ⟨p, b, o, e⟩)))
      · exact .inr (.inr (.inr (.inr ⟨p, b, o, (Host.Outcome.next.inj e).symm⟩)))

/-- Everything FINAL can do. -/
theorem exec_final_next {s t : State} (h : exec .final s = .next t) : s.fault = .noFault ∧
    ((s.phase = .uninit ∧ t = latchFault .uninitialised s) ∨
     (s.phase = .finalized ∧ t = latchFault .finalAfterFinal s) ∨
     (s.phase = .absorbing ∧ (ctrAdd s.t0 s.t1 s.buflen).ovf = true ∧ t = latchFault .counterOverflow s) ∨
     (s.phase = .absorbing ∧ (ctrAdd s.t0 s.t1 s.buflen).ovf = false ∧
       t = finishHash (compressBlock (padTail (raiseFlag (takeCount (ctrAdd s.t0 s.t1 s.buflen) s)))))) := by
  obtain ⟨hf, h⟩ := unlessFaulted_next h
  refine ⟨hf, ?_⟩
  rcases whileAbsorbing_next h with u | u | ⟨p, h⟩
  · exact .inl u
  · exact .inr (.inl u)
  · rcases counting_next h with ⟨o, e⟩ | ⟨o, e⟩
    · exact .inr (.inr (.inl ⟨p, o, e⟩))
    · exact .inr (.inr (.inr ⟨p, o, (Host.Outcome.next.inj e).symm⟩))

/-- Everything the issue of a word can do. -/
theorem issueWord_cases (w : CmdWord) (s : State) :
    (∃ i, decode w = .instr i ∧ issueWord w s = exec i s) ∨
    (∃ r, decode w = .illegal r ∧ issueWord w s = illegalCommand s) := by
  unfold issueWord
  cases decode w with
  | instr i => exact .inl ⟨i, rfl, rfl⟩
  | illegal r => exact .inr ⟨r, rfl, rfl⟩

/-- Everything a step can do. -/
theorem step_cases (s : State) :
    (s.pending = [] ∧ step s = .next s) ∨
    (∃ rest, s.pending = .rst :: rest ∧ step s = .next (applyReset { s with pending := rest })) ∨
    (∃ w rest, s.pending = .cmd w :: rest ∧ step s = issueWord w { s with pending := rest }) := by
  unfold step takeNext
  cases h : s.pending with
  | nil => exact .inl ⟨rfl, rfl⟩
  | cons e rest =>
    cases e with
    | rst => exact .inr (.inl ⟨rest, rfl, rfl⟩)
    | cmd w => exact .inr (.inr ⟨w, rest, rfl, rfl⟩)

end Sys2Proof.Machine
end

