-- ==== Sys2Proof/Laws/Encoding.lean ====
section
/-! SUPPORT. Packing and unpacking the fields of a command word. -/

namespace Sys2Proof

theorem pack_unpack (w : CmdWord) : pack (unpack w) = w := by
  unfold pack unpack
  apply BitVec.eq_of_getLsbD_eq
  intro i hi
  simp only [BitVec.getLsbD_append, BitVec.getLsbD_extractLsb']
  interval_cases i <;> simp

theorem unpack_pack (x : Fields) : unpack (pack x) = x := by
  obtain ⟨d, r, o⟩ := x
  unfold pack unpack
  simp only [Fields.mk.injEq]
  refine ⟨?_, ?_, ?_⟩ <;>
    (apply BitVec.eq_of_getLsbD_eq
     intro i hi
     simp only [BitVec.getLsbD_append, BitVec.getLsbD_extractLsb']
     interval_cases i <;> simp)

/-- The fields of a command stand for that command. -/
theorem decodeFields_fields (i : Instr) : decodeFields i.fields = .instr i := by
  cases i <;> simp [decodeFields, Instr.fields]

end Sys2Proof
end

