-- ==== Sys2Proof/Laws/Memory.lean ====
section
/-! SUPPORT. The input buffer: a read after a write, and the canonical form that every buffer operation keeps. -/

namespace Sys2Proof.Machine

theorem memRead_filter_self (m : Memory) (a : Nat) :
    memRead (m.filter (fun c => c.1 ≠ a)) a = Memory.unlisted := by
  induction m with
  | nil => rfl
  | cons c m ih => by_cases h : c.1 = a <;> simp_all [memRead]

theorem memRead_filter_other (m : Memory) {a k : Nat} (h : k ≠ a) :
    memRead (m.filter (fun c => c.1 ≠ a)) k = memRead m k := by
  induction m with
  | nil => rfl
  | cons c m ih =>
    by_cases hc : c.1 = a
    · have : c.1 ≠ k := by omega
      simp_all [memRead]
    · simp_all [memRead]

theorem memRead_insert_other (c : Host.Cell) (m : Memory) {k : Nat} (h : k ≠ c.1) :
    memRead (memInsert c m) k = memRead m k := by
  induction m with
  | nil => simp [memInsert, memRead, Ne.symm h]
  | cons c' m ih =>
    simp only [memInsert]
    split <;> simp_all [memRead, Ne.symm h]

theorem memRead_insert_self (c : Host.Cell) (m : Memory) (h : ∀ c' ∈ m, c'.1 ≠ c.1) :
    memRead (memInsert c m) c.1 = c.2 := by
  induction m with
  | nil => simp [memInsert, memRead]
  | cons c' m ih =>
    simp only [memInsert]
    split <;> simp_all [memRead]

theorem memRead_memWrite_self (m : Memory) (a : Fin 64) (b : Byte) : memRead (memWrite m a b) a.val = b := by
  unfold memWrite
  split
  · next h => rw [memRead_filter_self, h]
  · exact memRead_insert_self (a.val, b) _ (by simp)

theorem memRead_memWrite_other (m : Memory) (a : Fin 64) (b : Byte) {k : Nat} (h : k ≠ a.val) :
    memRead (memWrite m a b) k = memRead m k := by
  unfold memWrite
  split
  · exact memRead_filter_other m h
  · rw [memRead_insert_other _ _ h, memRead_filter_other m h]

/-- Reading after byte writes to a list of addresses. -/
theorem memRead_memWriteAll (as : List (Fin 64)) (v : Fin 64 → Byte) (m : Memory) (k : Fin 64) :
    memRead (memWriteAll m as v) k.val = if k ∈ as then v k else memRead m k.val := by
  induction as generalizing m with
  | nil => rfl
  | cons a as ih =>
    have step : memWriteAll m (a :: as) v = memWriteAll (memWrite m a (v a)) as v := rfl
    rw [step, ih]
    by_cases hk : k = a
    · subst hk; simp [memRead_memWrite_self]
    · have : k.val ≠ a.val := fun h => hk (Fin.ext h)
      simp [hk, memRead_memWrite_other m a (v a) this]

theorem mem_tailAddresses (len : Fin 65) (k : Fin 64) : k ∈ tailAddresses len ↔ len.val ≤ k.val := by
  simp [tailAddresses]

theorem mem_memInsert (c d : Host.Cell) (m : Memory) : d ∈ memInsert c m ↔ d = c ∨ d ∈ m := by
  induction m with
  | nil => simp [memInsert]
  | cons c' m ih =>
    simp only [memInsert]
    split
    · simp
    · simp only [List.mem_cons, ih]; tauto

theorem memInsert_sorted (c : Host.Cell) (m : Memory) (h : m.Pairwise (fun x y => x.1 < y.1))
    (fresh : ∀ c' ∈ m, c'.1 ≠ c.1) : (memInsert c m).Pairwise (fun x y => x.1 < y.1) := by
  induction m with
  | nil => simp [memInsert]
  | cons c' m ih =>
    have hc := List.pairwise_cons.1 h
    simp only [memInsert]
    split
    · next lt =>
      refine List.pairwise_cons.2 ⟨fun x hx => ?_, h⟩
      rcases List.mem_cons.1 hx with rfl | hx
      · exact lt
      · exact Nat.lt_trans lt (hc.1 x hx)
    · next nlt =>
      have ne := fresh c' (by simp)
      refine List.pairwise_cons.2 ⟨fun x hx => ?_, ih hc.2 (fun x hx => fresh x (by simp [hx]))⟩
      rcases (mem_memInsert c x m).1 hx with rfl | hx
      · omega
      · exact hc.1 x hx

theorem memWrite_wf {m : Memory} (h : Memory.wf m) (a : Fin 64) (b : Byte) : Memory.wf (memWrite m a b) := by
  have kept : Memory.wf (m.filter (fun c => c.1 ≠ a.val)) :=
    ⟨h.1.filter _, fun c hc => h.2 c (List.mem_filter.1 hc).1⟩
  unfold memWrite
  split
  · exact kept
  · next hb =>
    refine ⟨memInsert_sorted _ _ kept.1 (by simp), fun c hc => ?_⟩
    rcases (mem_memInsert _ c _).1 hc with rfl | hc
    · exact ⟨a.isLt, hb⟩
    · exact kept.2 c hc

theorem memWriteAll_wf (as : List (Fin 64)) (v : Fin 64 → Byte) {m : Memory} (h : Memory.wf m) :
    Memory.wf (memWriteAll m as v) := by
  induction as generalizing m with
  | nil => exact h
  | cons a as ih => exact ih (memWrite_wf h a (v a))

theorem wf_nil : Memory.wf [] := ⟨List.Pairwise.nil, by simp⟩

/-- The message words depend on the 64 bytes of the buffer alone. -/
theorem messageWords_congr {m m' : Memory} (h : ∀ j : Fin 64, memRead m j.val = memRead m' j.val) :
    messageWords m = messageWords m' := by
  have at_ (n : Nat) (hn : n < 64) : memRead m n = memRead m' n := h ⟨n, hn⟩
  unfold messageWords
  congr 1
  funext k
  have hk := k.isLt
  simp only [memRead32]
  rw [at_ _ (by omega), at_ _ (by omega), at_ _ (by omega), at_ _ (by omega)]

end Sys2Proof.Machine
end

