-- ==== Sys2Proof/Laws/Mixing.lean ====
section
/-! SUPPORT. An application of G, word by word. -/

namespace Sys2Proof.Machine

/-- Everything an application of G does to the working vector. -/
theorem applyG_getElem (p : Positions) (mx my : Word) (v : Vector Word 16) (k : Fin 16) :
    (applyG p mx my v)[k] =
      if k = p.pd then (mixG v[p.pa] v[p.pb] v[p.pc] v[p.pd] mx my).d
      else if k = p.pc then (mixG v[p.pa] v[p.pb] v[p.pc] v[p.pd] mx my).c
      else if k = p.pb then (mixG v[p.pa] v[p.pb] v[p.pc] v[p.pd] mx my).b
      else if k = p.pa then (mixG v[p.pa] v[p.pb] v[p.pc] v[p.pd] mx my).a
      else v[k] := by
  unfold applyG
  simp only [Fin.getElem_fin, Vector.getElem_set, Fin.ext_iff, eq_comm (a := k.val)]

/-- The four positions of every application are distinct. -/
theorem group_nodup : ∀ i : Fin 8, [group[i].pa, group[i].pb, group[i].pc, group[i].pd].Nodup := by decide

end Sys2Proof.Machine
end

