-- ==== Sys2Proof/Laws/PerInstr.lean ====
section
/-! SUPPORT. Facts about every command as syntax, one lemma per constructor. -/

namespace Sys2Proof.Laws

/-- The word of a command falls into a row of the opcode table (30_encoding.md R35). -/
def InTable.Statement (i : Instr) : Prop := ∃ r ∈ opcodeTable, r.covers (encode i) = true

theorem InTable.init : InTable.Statement .init :=
  ⟨{ mnemonic := "INIT", pattern := 0x0000, mask := 0xFFFF }, by simp [opcodeTable], by decide⟩

theorem InTable.absorb (d : Byte) : InTable.Statement (.absorb d) :=
  ⟨{ mnemonic := "ABSORB", pattern := 0x0001, mask := 0x00FF }, by simp [opcodeTable], by revert d; decide⟩

theorem InTable.final : InTable.Statement .final :=
  ⟨{ mnemonic := "FINAL", pattern := 0x0002, mask := 0xFFFF }, by simp [opcodeTable], by decide⟩

end Sys2Proof.Laws
end

