-- ==== Sys2Proof/Laws/Primitives.lean ====
section
/-! SUPPORT. The word primitives, in terms of Lean's own operations, and the padded buffer. -/

namespace Sys2Proof.Machine

theorem rotr_eq_rotateRight (x : Word) {n : Nat} (h : n < 32) : rotr x n = x.rotateRight n := by
  rw [BitVec.rotateRight_def, Nat.mod_eq_of_lt h]
  rfl

theorem le32_eq_append (b0 b1 b2 b3 : Byte) : le32 b0 b1 b2 b3 = b3 ++ b2 ++ b1 ++ b0 := by
  apply BitVec.eq_of_getLsbD_eq
  intro i hi
  unfold le32
  simp only [BitVec.getLsbD_or, BitVec.getLsbD_shiftLeft, BitVec.getLsbD_setWidth, BitVec.getLsbD_append]
  interval_cases i <;> simp

theorem bytesLE_getElem (w : Word) (i : Nat) (h : i < 4) : (bytesLE w)[i] = w.extractLsb' (8 * i) 8 := by
  interval_cases i <;> rfl

theorem byte_toNat (w : Word) (n : Nat) : (w.extractLsb' n 8).toNat = w.toNat / 2 ^ n % 256 := by
  simp [BitVec.extractLsb'_toNat, Nat.shiftRight_eq_div_pow]

/-- FINAL's padding, byte by byte. -/
theorem padTail_bufByte (s : State) (k : Fin 64) :
    (padTail s).bufByte k = if k.val < s.buflen.val then s.bufByte k else 0 := by
  simp only [State.bufByte, padTail_buf, memRead_memWriteAll, mem_tailAddresses]
  by_cases h : s.buflen.val ≤ k.val
  · simp [h, Nat.not_lt.2 h]
  · simp [h, Nat.lt_of_not_le h]

end Sys2Proof.Machine
end

