-- ==== Sys2Proof/Laws/Sequence.lean ====
section
/-! SUPPORT. Runs of several steps, and the chain of the block-by-block hash. -/

namespace Sys2Proof.Machine

/-- One step of the host's own run. -/
theorem run_succ (M : Host.Core) (k : Nat) (s : M.State) :
    M.run (k + 1) s =
      match M.step s with
      | .next t => M.run k t
      | .fault r => .fault r
      | .refused r => .refused r := rfl

/-- The host's own run of the machine is `steps`. -/
theorem core_run_eq_steps (k : Nat) (s : State) : Sys2Proof.core.run k s = steps k s := by
  induction k generalizing s with
  | zero => rfl
  | succ k ih =>
    have e := run_succ Sys2Proof.core k s
    rw [steps]
    cases h : step s with
    | next t => rw [show Sys2Proof.core.step s = .next t from h] at e; exact e.trans (ih t)
    | fault r => rw [show Sys2Proof.core.step s = .fault r from h] at e; exact e
    | refused r => rw [show Sys2Proof.core.step s = .refused r from h] at e; exact e

theorem steps_next {k : Nat} {s t : State} (h : step s = .next t) : steps (k + 1) s = steps k t := by
  rw [steps, h]

/-- A run of `j + k` steps is a run of `j` and then of `k`. -/
theorem steps_add {j k : Nat} {s t : State} (h : steps j s = .next t) : steps (j + k) s = steps k t := by
  induction j generalizing s with
  | zero => cases h; simp
  | succ j ih =>
    rw [Nat.succ_add, steps]
    rw [steps] at h
    cases e : step s with
    | next u => rw [e] at h; exact ih h
    | fault r => rw [e] at h; cases h
    | refused r => rw [e] at h; cases h

theorem chainAfter_succ (x : List Byte) (c : Nat) :
    chainAfter x (c + 1) =
      compress (chainAfter x c) (blockWords x c) (countLow (64 * (c + 1))) (countHigh (64 * (c + 1))) 0 := by
  unfold chainAfter
  rw [List.range_succ, List.foldl_append]
  rfl

theorem blockWords_congr {x y : List Byte} {i : Nat} (h : ∀ j < 64, x.getD (64 * i + j) 0 = y.getD (64 * i + j) 0) :
    blockWords x i = blockWords y i := by
  unfold blockWords
  congr 1
  funext k
  have hk := k.isLt
  simp only [Nat.add_assoc]
  rw [h _ (by omega), h _ (by omega), h _ (by omega), h _ (by omega)]

end Sys2Proof.Machine
end

