-- ==== Sys2Proof/Tests/Slice0.lean ====
section
/-! SUPPORT. The model's own tests, each with the place its expected result is taken from, and for every statement with
hypotheses a state and operands that meet them. -/

namespace Sys2Proof.Tests

open Sys2Proof.Machine

/-- The state of an outcome that has one. -/
def nextOf : Result → Option State
  | .next t => some t
  | _ => none

/-- A state in the given phase with the given buffer, after INIT's chaining value. -/
def at_ (phase : Phase) (buf : Memory) (buflen : Fin 65) : State :=
  { State.reset with h := initialChaining, buf := buf, buflen := buflen, phase := phase }

/-- ABSORBING with "abc" in the buffer (95_test_vectors.md P2, before FINAL). -/
def abc : State := at_ .absorbing [(0, 0x61), (1, 0x62), (2, 0x63)] 3

/-- ABSORBING with a full buffer of zeros, nothing yet compressed. -/
def fullZeros : State := at_ .absorbing [] 64

/-- ABSORBING with the bytes 00..3F in the buffer (95_test_vectors.md P3, after the 64th ABSORB). -/
def full : State :=
  at_ .absorbing ((List.finRange 64).tail.map (fun j => (j.val, BitVec.ofNat 8 j.val))) 64

/-- ABSORBING at the counter `t = 2^64 - 64` (95_test_vectors.md section 2.8). -/
def atLimit (buflen : Fin 65) : State :=
  { at_ .absorbing [] buflen with t0 := 0xFFFFFFC0, t1 := 0xFFFFFFFF }

/-- A faulted block. -/
def faulted : State := { State.reset with fault := .uninitialised }

/-! ## Well-formedness: what each check refuses (30_encoding.md R36, R38) -/

theorem illformed_reserved_op : Fields.wellFormed { data := 0, rsv := 0, op := 3 } = false := by decide
theorem illformed_reserved_bits : Fields.wellFormed { data := 0x61, rsv := 1, op := 1 } = false := by decide
theorem illformed_init_with_data : Fields.wellFormed { data := 1, rsv := 0, op := 0 } = false := by decide
theorem illformed_final_with_data : Fields.wellFormed { data := 1, rsv := 0, op := 2 } = false := by decide
theorem illformed_absorb_operand : SourceCommand.wellFormed (.absorb 256) = false := by decide
theorem illformed_update_operand : SourceCommand.wellFormed (.update [1, 256]) = false := by decide
theorem illformed_hash_operand : SourceCommand.wellFormed (.hash [300]) = false := by decide

/-! ## Decoding, words written out from 30_encoding.md R35 and 95_test_vectors.md section 2.6 -/

theorem test_decode_init : decode 0b0000000000000000#16 = .instr .init := by decide
theorem test_decode_absorb : decode 0b0110000100000001#16 = .instr (.absorb 0x61) := by decide
theorem test_decode_final : decode 0b0000000000000010#16 = .instr .final := by decide
theorem test_decode_illegal :
    (([0x0003, 0x0004, 0x0005, 0x0100, 0x0102, 0x00FD, 0x8003, 0xFFFF] : List CmdWord).map
      (fun w => (decode w).isLegal)).all (· = false) := by decide
theorem test_encode_absorb : encode (.absorb 0xFF) = 0b1111111100000001#16 := by decide
theorem test_opcode_rows_disjoint :
    opcodeTable.Pairwise (fun r r' => r.pattern &&& r.mask &&& r'.mask ≠ r'.pattern &&& r.mask &&& r'.mask) := by decide
theorem test_table_word : decodeTableWord 16 0x6101 = some (.absorb 0x61) := by decide
theorem test_table_word_too_long : decodeTableWord 32 0x6101 = none := by decide

/-! ## Parameters (00_scope.md R1) -/

theorem test_parameters :
    roundOrder.length = Config.rounds ∧ applicationOrder.length = Config.applicationsPerRound ∧
    State.reset.h.toList.length = Config.hWords ∧ (workingVector iv 0 0 0).toList.length = Config.vWords ∧
    (tailAddresses 0).length = Config.blockBytes ∧ (digestBytes iv).toList.length = Config.digestLen := by decide

/-! ## Primitives, G and COMPRESS (95_test_vectors.md sections 2.1, 2.2 and 2.4) -/

theorem test_rotr :
    rotr 0x12345678 16 = 0x56781234 ∧ rotr 0x12345678 12 = 0x67812345 ∧ rotr 0x12345678 8 = 0x78123456 ∧
    rotr 0x12345678 7 = 0xF02468AC ∧ rotr 1 7 = 0x02000000 := by decide
theorem test_le32 : le32 0x61 0x62 0x63 0x00 = 0x00636261 := by decide
theorem test_bytesLE : bytesLE 0x8C5E8C50 = #v[0x50, 0x8C, 0x5E, 0x8C] := by decide
theorem test_mix_wrap : mixG 0xFFFFFFFF 0xFFFFFFFF 0xFFFFFFFF 0xFFFFFFFF 0xFFFFFFFF 0xFFFFFFFF =
    { a := 0x000FFFDC, b := 0x3DB81BE4, c := 0xDC020DFE, d := 0xDC000DFF } := by decide
theorem test_mix_operands : mixG 0x12345678 0x9ABCDEF0 0x0FEDCBA9 0x87654321 0xDEADBEEF 0xCAFEBABE =
    { a := 0xBBE38D05, b := 0xAB406B67, c := 0xC5706E25, d := 0xFE0C9581 } := by decide
/-- V3.2, round 0. -/
theorem test_first_round :
    mixRound #v[0x00636261, 0, 0, 0, 0, 0, 0, 0, 0, 0, 0, 0, 0, 0, 0, 0]
      (workingVector initialChaining 3 0 0xFFFFFFFF) 0 =
    #v[0x16A3242E, 0xD7B5E238, 0xCE8CE24B, 0x927AEDE1, 0xA7B430D9, 0x93A4A14E, 0xA44E7C31, 0x41D4759B,
       0x95BF33D3, 0x9A99C181, 0x608A3A6B, 0xB666383E, 0x7A8DD50F, 0xBE378ED7, 0x353D1EE6, 0x3BB44C6B] := by
  decide +kernel
/-- V3.4: the bytes 00..3F, not final. -/
theorem test_compress_nonfinal :
    compress initialChaining (messageWords full.buf) 0x40 0 0 =
    #v[0x69B86EDC, 0x9C74BB75, 0x25BD102E, 0x83F24029, 0x9A9D32C1, 0xA02250BB, 0x3AA0A774, 0xE4B93E1D] := by
  decide +kernel

/-! ## The counter (95_test_vectors.md section 2.5) -/

theorem test_ctr_carry : ctrAdd 0xFFFFFFC0 7 64 = { n0 := 0, n1 := 8, ovf := false } := by decide
theorem test_ctr_overflow : (ctrAdd 0xFFFFFFC0 0xFFFFFFFF 64).ovf = true := by decide
theorem test_ctr_largest :
    ctrAdd 0xFFFFFFC0 0xFFFFFFFF 63 = { n0 := 0xFFFFFFFF, n1 := 0xFFFFFFFF, ovf := false } := by decide

/-! ## The commands, one step each -/

/-- 43_controller.md R59, the example. -/
theorem test_init :
    (nextOf (exec .init (at_ .finalized [(5, 1)] 9))).map (fun t => (t.h, t.buf, t.buflen, t.phase)) =
      some (#v[0x6B08E647, 0xBB67AE85, 0x3C6EF372, 0xA54FF53A, 0x510E527F, 0x9B05688C, 0x1F83D9AB, 0x5BE0CD19],
        [], 0, .absorbing) := by decide
/-- 43_controller.md R60: the 64th byte only fills the buffer (95_test_vectors.md P3). -/
theorem test_absorb_fills :
    (nextOf (exec (.absorb 0x3F) (at_ .absorbing [(62, 0x3E)] 63))).map (fun t => (t.buf, t.buflen, t.t0)) =
      some ([(62, 0x3E), (63, 0x3F)], 64, 0) := by decide
/-- 43_controller.md R60, the example: the 65th byte. -/
theorem test_absorb_compresses :
    (nextOf (exec (.absorb 0x40) full)).map
      (fun t => (t.h[0], t.t0, t.buflen, t.bufByte 0, t.bufByte 1)) =
      some (0x69B86EDC, 0x40, 1, 0x40, 0x01) := by decide +kernel
/-- 95_test_vectors.md P2 and V1.2: the "abc" digest. -/
theorem test_final_abc :
    (nextOf (exec .final abc)).bind State.digest =
      some #v[0x50, 0x8C, 0x5E, 0x8C, 0x32, 0x7C, 0x14, 0xE2, 0xE1, 0xA7, 0x2B, 0xA3, 0x4E, 0xEB, 0x45, 0x2F,
        0x37, 0x45, 0x8B, 0x20, 0x9E, 0xD6, 0x3A, 0x29, 0x4D, 0x99, 0x9B, 0x4C, 0x86, 0x67, 0x59, 0x82] := by
  decide +kernel
/-- 43_controller.md R61: the other fields of P2's end state. -/
theorem test_final_fields :
    (nextOf (exec .final abc)).map (fun t => (t.buf, t.t0, t.t1, t.f, t.phase)) =
      some ([(0, 0x61), (1, 0x62), (2, 0x63)], 3, 0, 0xFFFFFFFF, .finalized) := by decide +kernel

/-! ## Steps, faults and ports (95_test_vectors.md section 2.8 and P5) -/

theorem test_step_from_reset :
    ([0x0000, 0x6101, 0x0002, 0x0100].map (fun w =>
      (nextOf (step (State.reset.withFetchWord 16 w))).map (fun t => (t.fault, t.phase, t.pending)))) =
      [some (.noFault, .absorbing, []), some (.uninitialised, .uninit, []), some (.uninitialised, .uninit, []),
        some (.illegalCommand, .uninit, [])] := by decide
theorem test_no_step_after_fault : nextOf (step (faulted.withFetchWord 16 0x0000)) = none := by decide
theorem test_reset_clears_fault :
    (nextOf (step { faulted with pending := [.rst] })).map (fun t => (t.phase, t.fault)) =
      some (.uninit, .noFault) := by decide
theorem test_status : ({ at_ .finalized [] 0 with fault := .absorbAfterFinal } : State).status = 0x000E := by decide
theorem test_digest_invalid : abc.digest = none := by decide

/-! ## The assembler (30_encoding.md R38, R39; 95_test_vectors.md P2) -/

theorem test_assemble_absorb :
    ["absorb 0x61 ; a comment", "ABSORB 97", "ABSORB 'a'"].map (fun l => assembleLine l.toList) =
      [some [0x6101], some [0x6101], some [0x6101]] := by decide
theorem test_assemble_hash : assembleLine "HASH \"abc\"".toList = some [0x0000, 0x6101, 0x6201, 0x6301, 0x0002] := by
  decide
/-- The single quote as a quoted character, before a comment and in a list. -/
theorem test_assemble_quotes :
    ["ABSORB ''' ; x", "UPDATE ''', 0x61", "UPDATE ',', '\"' ; ';'"].map (fun l => assembleLine l.toList) =
      [some [0x2701], some [0x2701, 0x6101], some [0x2C01, 0x2201]] := by decide
/-- The program of 95_test_vectors.md P3, whose second line is a range (log 16). -/
theorem test_assemble_range :
    assembleLines ["INIT".toList, "UPDATE 0x00..0x3F".toList, "UPDATE 0x40".toList, "FINAL".toList] =
      some (0x0000 :: ((List.range 65).map (fun b => BitVec.ofNat 16 (b * 256 + 1)) ++ [0x0002])) := by decide
/-- A range in a list, and the ranges that encode nothing (log 16). -/
theorem test_assemble_range_ends :
    ["UPDATE 9, 1 .. 2", "UPDATE 2..1", "UPDATE 254..256", "ABSORB 1..1"].map (fun l => assembleLine l.toList) =
      [some [0x0901, 0x0101, 0x0201], none, none, none] := by decide
theorem test_assemble_errors :
    ["ABSORB 256", "FINAL 1", "JUMP"].map (fun l => assembleLine l.toList) = [none, none, none] := by decide
theorem test_assemble_lines :
    assembleLines ["INIT".toList, [], "UPDATE 1, 2".toList, "FINAL".toList] =
      some [0x0000, 0x0101, 0x0201, 0x0002] := by decide

/-! ## Witnesses: hypotheses that are met -/

theorem witness_DecodeFollowsTheTable :
    (0x0000 : CmdWord) &&& 0xFFFF = 0x0000 ∧ (0x0001 : CmdWord) &&& 0x00FF = 0x0001 ∧
    (0xFF01 : CmdWord) &&& 0x00FF = 0x0001 ∧ (0x0002 : CmdWord) &&& 0xFFFF = 0x0002 ∧
    ((0x0102 : CmdWord) &&& 0xFFFF ≠ 0x0000 ∧ (0x0102 : CmdWord) &&& 0x00FF ≠ 0x0001 ∧
      (0x0102 : CmdWord) &&& 0xFFFF ≠ 0x0002) := by decide
theorem witness_DecodeAndEncodeAgree :
    (Instr.absorb 0xFF).wellFormed = true ∧ decode 0xFF01 = .instr (.absorb 0xFF) := by decide
theorem witness_IllegalWordOnlyLatchesItsFault :
    State.reset.fault = .noFault ∧ decode 0x0003 = .illegal .reservedOp := by decide
theorem witness_StepRunsTheDecodedCommand :
    State.pending { State.reset with pending := [.cmd 0x6101, .rst] } = .cmd 0x6101 :: [.rst] ∧
    decode 0x6101 = .instr (.absorb 0x61) ∧
    State.pending { State.reset with pending := [.cmd 0x0100] } = .cmd 0x0100 :: [] := by decide
theorem witness_IdleBlockHoldsItsState : State.reset.pending = [] := by decide
theorem witness_FaultedBlockTakesNoCommand :
    faulted.fault ≠ .noFault ∧ ∃ t, takeEvent .rst faulted = .next t := ⟨by decide, _, rfl⟩
theorem witness_StopNamesTheLatchedFault : faulted.fault ≠ .noFault := by decide
theorem witness_FaultsArePrecise : ∃ t, issueWord 0x6101 State.reset = .next t ∧ t.fault ≠ .noFault :=
  ⟨_, rfl, by decide⟩
theorem witness_OneFaultInTheOrderOfTheChecks : State.reset.fault = .noFault ∧ faulted.fault ≠ .noFault := by decide
theorem witness_InitFollowsItsRule :
    State.reset.fault = .noFault ∧ (at_ .absorbing [] 64).fault = .noFault ∧ (at_ .finalized [] 0).fault = .noFault := by
  decide
theorem witness_InitForgetsThePast :
    State.reset.fault = .noFault ∧ abc.fault = .noFault ∧ State.reset.pending = abc.pending ∧
    State.reset.draws = abc.draws ∧ ∃ t, exec .init abc = .next t := ⟨rfl, rfl, rfl, rfl, _, rfl⟩
theorem witness_AbsorbFollowsItsRule :
    State.reset.phase = .uninit ∧ (at_ .finalized [] 0).phase = .finalized ∧
    ((at_ .absorbing [] 0).phase = .absorbing ∧ (at_ .absorbing [] 0).buflen.val = (0 : Fin 64).val) ∧
    (at_ .absorbing [] 63).buflen.val = (63 : Fin 64).val ∧
    ((atLimit 64).phase = .absorbing ∧ (atLimit 64).buflen.val = 64 ∧ 2 ^ 64 ≤ (atLimit 64).count + 64) ∧
    (fullZeros.phase = .absorbing ∧ fullZeros.buflen.val = 64 ∧ fullZeros.count + 64 < 2 ^ 64) ∧
    State.count { atLimit 64 with t0 := 0xFFFFFF80 } + 64 < 2 ^ 64 ∧
    State.reset.fault = .noFault ∧ (at_ .finalized [] 0).fault = .noFault ∧ (at_ .absorbing [] 0).fault = .noFault ∧
    (atLimit 64).fault = .noFault ∧ fullZeros.fault = .noFault := by decide
theorem witness_FinalFollowsItsRule :
    (abc.fault = .noFault ∧ abc.phase = .absorbing ∧ abc.count + abc.buflen.val < 2 ^ 64) ∧
    (atLimit 63).count + (atLimit 63).buflen.val < 2 ^ 64 ∧
    ((atLimit 64).fault = .noFault ∧ (atLimit 64).phase = .absorbing ∧
      2 ^ 64 ≤ (atLimit 64).count + (atLimit 64).buflen.val) ∧
    (State.reset.fault = .noFault ∧ State.reset.phase = .uninit) ∧
    ((at_ .finalized [] 0).fault = .noFault ∧ (at_ .finalized [] 0).phase = .finalized) := by decide
theorem witness_FullBlockWaitsForTheNextCommand :
    (at_ .absorbing [] 63).fault = .noFault ∧ (at_ .absorbing [] 63).phase = .absorbing ∧
    (at_ .absorbing [] 63).buflen.val = 63 ∧ (at_ .absorbing [] 63).f = 0 ∧
    (at_ .absorbing [] 63).count + 64 < 2 ^ 64 := by decide
theorem witness_CtrAddIsTheWideSum :
    (ctrAdd 0xFFFFFFC0 0xFFFFFFFF 63).ovf = false ∧ (ctrAdd 0xFFFFFFC0 0xFFFFFFFF 64).ovf = true := by decide
theorem witness_CounterChangesOnlyByTheIncrement :
    (nextOf (exec .init abc)).isSome ∧ (nextOf (exec (.absorb 1) fullZeros)).isSome ∧
    (nextOf (exec .final abc)).isSome := by decide
theorem witness_OverflowOnlyAtTheLimit :
    (atLimit 64).Inv ∧ (nextOf (exec (.absorb 1) (atLimit 64))).map (·.fault) = some .counterOverflow := by decide
theorem witness_FlagIsWrittenByInitAndFinalOnly :
    (nextOf (exec .final abc)).map (fun t => t.f == abc.f) = some false ∧
    (nextOf (exec .init { abc with f := 0xFFFFFFFF })).map (fun t => t.f == 0xFFFFFFFF) = some false := by decide
theorem witness_PhaseMovesOnlyByInitFinalAndReset :
    (nextOf (exec .final abc)).map (fun t => t.phase == abc.phase) = some false ∧
    (nextOf (takeEvent .rst abc)).map (fun t => (t.phase, t.phase == abc.phase)) =
      some (.uninit, false) := by decide
theorem witness_RotrMovesEachBit : (0 < 1 ∧ 1 < 32) ∧ (0 < 31 ∧ 31 < 32) := by decide
theorem witness_MessageWordsAreLittleEndian :
    ((0 : Fin 64).val = 4 * (0 : Fin 16).val ∧ (1 : Fin 64).val = 4 * (0 : Fin 16).val + 1 ∧
      (2 : Fin 64).val = 4 * (0 : Fin 16).val + 2 ∧ (3 : Fin 64).val = 4 * (0 : Fin 16).val + 3) ∧
    ((60 : Fin 64).val = 4 * (15 : Fin 16).val ∧ (61 : Fin 64).val = 4 * (15 : Fin 16).val + 1 ∧
      (62 : Fin 64).val = 4 * (15 : Fin 16).val + 2 ∧ (63 : Fin 64).val = 4 * (15 : Fin 16).val + 3) := by decide
theorem witness_BufferWriteIsOneByte : Memory.wf abc.buf ∧ memRead abc.buf (2 : Fin 64).val = 0x63 := by decide
theorem witness_MixRunsItsEightSteps : ∃ a1 b1 c1 d1 a2 b2 c2 d2 : Word,
    a1 = 1 + 0 + 0 ∧ d1 = (0 ^^^ a1).rotateRight 16 ∧ c1 = 0 + d1 ∧ b1 = (0 ^^^ c1).rotateRight 12 ∧
    a2 = a1 + b1 + 0 ∧ d2 = (d1 ^^^ a2).rotateRight 8 ∧ c2 = c1 + d2 ∧ b2 = (b1 ^^^ c2).rotateRight 7 :=
  ⟨_, _, _, _, _, _, _, _, rfl, rfl, rfl, rfl, rfl, rfl, rfl, rfl⟩
theorem witness_MixWorksInPlace :
    (1 : Fin 16) ≠ group[0].pa ∧ (1 : Fin 16) ≠ group[0].pb ∧ (1 : Fin 16) ≠ group[0].pc ∧
    (1 : Fin 16) ≠ group[0].pd := by decide
theorem witness_ColumnsAndDiagonalsInAnyOrder :
    ([3, 1, 0, 2] : List (Fin 8)).Perm [0, 1, 2, 3] ∧ ([7, 5, 4, 6] : List (Fin 8)).Perm [4, 5, 6, 7] := by decide
theorem witness_DigestPortAfterFinalOnly : ∃ x, (at_ .finalized [] 0).digest = some x := ⟨_, rfl⟩
theorem witness_SourceCommandsAssemble : 255 < 256 ∧ 256 ≤ 256 ∧ ∀ n ∈ [0, 255], n < 256 := by decide
theorem witness_QuotedCharactersAssemble :
    'a'.toNat < 128 ∧ '\''.toNat < 128 ∧ ';'.toNat < 128 ∧ (Char.ofNat 0).toNat < 128 ∧ (Char.ofNat 127).toNat < 128 := by
  decide
theorem witness_EveryStepKeepsTheInvariant :
    abc.Inv ∧ (nextOf (step (abc.withFetchWord 16 0x6401))).isSome := by decide
theorem witness_AbsorbedBytesAreCountedAndBuffered :
    abc.fault = .noFault ∧ [0x61].length ≤ 2 ^ 64 ∧
    State.pending { abc with pending := [.cmd 0x0000, .cmd 0x6101, .rst] } =
      commandEvents (.init :: [0x61].map .absorb) ++ [.rst] := by decide
theorem witness_DigestIsTheBlockwiseHash :
    abc.fault = .noFault ∧ [0x61].length < 2 ^ 64 ∧
    State.pending { abc with pending := [.cmd 0x0000, .cmd 0x6101, .cmd 0x0002, .rst] } =
      commandEvents (.init :: ([0x61].map .absorb ++ [.final])) ++ [.rst] := by decide
/-- Two states that agree and differ in a stale byte. -/
theorem witness_UnspecifiedValuesNeverShow :
    State.Agree { abc with buf := [(0, 0x61), (1, 0x62), (2, 0x63), (3, 0x64)] } abc ∧
    ({ abc with buf := [(0, 0x61), (1, 0x62), (2, 0x63), (3, 0x64)] } : State) ≠ abc :=
  ⟨⟨rfl, rfl, rfl, fun _ => ⟨rfl, rfl, rfl, rfl, rfl, by decide⟩, fun _ => rfl⟩, by decide⟩

end Sys2Proof.Tests
end

section
/-! The primitives of 00_scope.md section 5: rotation, `LE32` and `bytesLE`, by bit and by value. -/

namespace Sys2Proof.Machine

/-- The rotation in numbers: the bits shifted out on the right come back in on the left (00_scope.md R4). -/
theorem rotr_toNat (x : Word) (n : Nat) :
    (rotr x n).toNat = ((x.toNat >>> n) ||| (x.toNat <<< (32 - n))) % 2 ^ 32 := by
  have shifted_lt : x.toNat >>> n < 2 ^ 32 := Nat.lt_of_le_of_lt (Nat.shiftRight_le _ _) x.isLt
  rw [rotr, BitVec.toNat_or, BitVec.toNat_ushiftRight, BitVec.toNat_shiftLeft, Nat.or_mod_two_pow,
    Nat.mod_eq_of_lt shifted_lt]

/-- The rotation bit by bit (00_scope.md R4). -/
theorem rotr_getLsbD (x : Word) {n k : Nat} (hn : n < 32) (hk : k < 32) :
    (rotr x n).getLsbD k = x.getLsbD ((k + n) % 32) := by
  rw [rotr_eq_rotateRight x hn, BitVec.getLsbD_rotateRight, Nat.mod_eq_of_lt hn]
  by_cases h : k < 32 - n
  · have unwrapped : (k + n) % 32 = n + k := by omega
    simp [h, unwrapped]
  · have wrapped : (k + n) % 32 = k - (32 - n) := by omega
    simp [h, hk, wrapped]

theorem append_byte_toNat {m : Nat} (x : BitVec m) (b : Byte) : (x ++ b).toNat = x.toNat * 2 ^ 8 + b.toNat := by
  rw [BitVec.toNat_append, ← Nat.shiftLeft_add_eq_or_of_lt b.isLt, Nat.shiftLeft_eq]

/-- The value of `LE32` (00_scope.md R5). -/
theorem le32_toNat (b0 b1 b2 b3 : Byte) :
    (le32 b0 b1 b2 b3).toNat = b0.toNat + b1.toNat * 2 ^ 8 + b2.toNat * 2 ^ 16 + b3.toNat * 2 ^ 24 := by
  simp only [le32_eq_append, append_byte_toNat]
  omega

/-- The value of each byte of `bytesLE` (00_scope.md R6). -/
theorem bytesLE_getElem_toNat (w : Word) (i : Nat) (h : i < 4) :
    ((bytesLE w)[i]).toNat = w.toNat / 2 ^ (8 * i) % 256 := by
  rw [bytesLE_getElem w i h, byte_toNat]

theorem bytesLE_le32 (b0 b1 b2 b3 : Byte) : bytesLE (le32 b0 b1 b2 b3) = #v[b0, b1, b2, b3] := by
  apply Vector.ext
  intro i hi
  apply BitVec.eq_of_toNat_eq
  rw [bytesLE_getElem_toNat _ i hi, le32_toNat]
  interval_cases i <;> simp <;> omega

theorem le32_bytesLE (w : Word) : le32 (bytesLE w)[0] (bytesLE w)[1] (bytesLE w)[2] (bytesLE w)[3] = w := by
  apply BitVec.eq_of_toNat_eq
  simp only [le32_toNat, bytesLE_getElem_toNat]
  omega

/-- Settles O24: the rotation bit by bit and as the rule's formula. -/
theorem rotrMovesEachBit : Obligations.RotrMovesEachBit := by
  intro x n _ hn
  exact ⟨fun _ hk => rotr_getLsbD x hn hk, rotr_toNat x n⟩

/-- Settles O25: the values of `LE32` and of each byte decide both inverses. -/
theorem wordAndBytesAreInverse : Obligations.WordAndBytesAreInverse :=
  ⟨fun b0 b1 b2 b3 => ⟨le32_toNat b0 b1 b2 b3, bytesLE_le32 b0 b1 b2 b3⟩,
    fun w => ⟨fun i => bytesLE_getElem_toNat w i i.isLt, le32_bytesLE w⟩⟩

end Sys2Proof.Machine
end

section
/-! The message words of the buffer (20_memory.md R24). -/

namespace Sys2Proof.Machine

theorem messageWords_getElem (m : Memory) (k : Fin 16) : (messageWords m)[k] = memRead32 m (4 * k.val) :=
  Vector.getElem_ofFn k.isLt

/-- The value of a four-byte read: the byte at the lowest address is the least significant (20_memory.md R24). -/
theorem memRead32_toNat (m : Memory) (addr : Nat) :
    (memRead32 m addr).toNat =
      (memRead m addr).toNat + (memRead m (addr + 1)).toNat * 2 ^ 8 + (memRead m (addr + 2)).toNat * 2 ^ 16 +
        (memRead m (addr + 3)).toNat * 2 ^ 24 :=
  le32_toNat _ _ _ _

/-- Settles O26: message word `k` is the four-byte read at `4k`, whose value is that of `LE32`. -/
theorem messageWordsAreLittleEndian : Obligations.MessageWordsAreLittleEndian := by
  intro s k j0 j1 j2 j3 h0 h1 h2 h3
  rw [messageWords_getElem, memRead32_toNat]
  simp only [State.bufByte, h0, h1, h2, h3]

end Sys2Proof.Machine
end

section
/-! Which fields stand for a command, and which words are illegal (30_encoding.md R35, R36). -/

namespace Sys2Proof

theorem fields_wellFormed (i : Instr) : i.fields.wellFormed = true := by
  cases i <;> rfl

theorem op_cases (o : BitVec 2) : o = 0 ∨ o = 1 ∨ o = 2 ∨ o = 3 := by
  revert o; decide

/-- R36's reasons are together the failure of `Fields.wellFormed`. -/
theorem wellFormed_eq_false_iff (x : Fields) :
    x.wellFormed = false ↔
      (x.op = 3 ∨ x.rsv ≠ 0 ∨ (x.op = 0 ∧ x.data ≠ 0) ∨ (x.op = 2 ∧ x.data ≠ 0)) := by
  rcases op_cases x.op with h | h | h | h <;> simp [Fields.wellFormed, h, imp_iff_not_or]

theorem exists_fields_of_wellFormed {x : Fields} (h : x.wellFormed = true) : ∃ i : Instr, i.fields = x := by
  obtain ⟨data, rsv, op⟩ := x
  obtain ⟨⟨hop, rfl⟩, hdata⟩ : (op ≠ 3 ∧ rsv = 0) ∧ (op = 1 ∨ data = 0) := by simpa [Fields.wellFormed] using h
  rcases op_cases op with rfl | rfl | rfl | rfl
  · obtain rfl : data = 0 := hdata.resolve_left (by decide)
    exact ⟨.init, rfl⟩
  · exact ⟨.absorb data, rfl⟩
  · obtain rfl : data = 0 := hdata.resolve_left (by decide)
    exact ⟨.final, rfl⟩
  · exact absurd rfl hop

theorem decodeFields_illegal_of_not_wellFormed {x : Fields} (h : x.wellFormed = false) :
    ∃ r, decodeFields x = .illegal r := by
  by_cases op3 : x.op = 3
  · exact ⟨.reservedOp, if_pos op3⟩
  by_cases rsv : x.rsv ≠ 0
  · exact ⟨.reservedBits, (if_neg op3).trans (if_pos rsv)⟩
  rcases (wellFormed_eq_false_iff x).1 h with op | reserved | ⟨op, data⟩ | ⟨op, data⟩
  · exact absurd op op3
  · exact absurd reserved rsv
  · exact ⟨.initWithData, by simp_all [decodeFields]⟩
  · exact ⟨.finalWithData, by simp_all [decodeFields]⟩

/-- Everything fields can decode as: those of a command are well-formed, and all others are illegal. -/
theorem decodeFields_cases (x : Fields) :
    (∃ i : Instr, i.fields = x) ∨ (x.wellFormed = false ∧ ∃ r, decodeFields x = .illegal r) := by
  cases h : x.wellFormed with
  | true => exact .inl (exists_fields_of_wellFormed h)
  | false => exact .inr ⟨rfl, decodeFields_illegal_of_not_wellFormed h⟩

theorem decodeFields_eq_instr_iff (x : Fields) (i : Instr) : decodeFields x = .instr i ↔ i.fields = x := by
  constructor
  · intro h
    rcases decodeFields_cases x with ⟨j, rfl⟩ | ⟨-, r, hr⟩
    · rw [decodeFields_fields, Decoded.instr.injEq] at h
      rw [h]
    · rw [hr] at h
      cases h
  · rintro rfl
    exact decodeFields_fields i

theorem decodeFields_illegal_iff (x : Fields) : (∃ r, decodeFields x = .illegal r) ↔ x.wellFormed = false := by
  rcases decodeFields_cases x with ⟨i, rfl⟩ | ⟨hx, hr⟩
  · simp [decodeFields_fields, fields_wellFormed]
  · exact iff_of_true hr hx

/-- A word decodes as a command exactly if it is the command's word. -/
theorem decode_eq_instr_iff (w : CmdWord) (i : Instr) : decode w = .instr i ↔ encode i = w := by
  rw [decode, decodeFields_eq_instr_iff, encode]
  constructor
  · intro h
    rw [h, pack_unpack]
  · rintro rfl
    exact (unpack_pack i.fields).symm

/-- A word that is the word of no command is illegal. -/
theorem decode_illegal_of_ne_encode {w : CmdWord} (h : ∀ i, encode i ≠ w) : ∃ r, decode w = .illegal r := by
  cases hw : decode w with
  | instr i => exact absurd ((decode_eq_instr_iff w i).1 hw) (h i)
  | illegal r => exact ⟨r, rfl⟩

end Sys2Proof
end

section
/-! The decode table's masks in numbers, and the words of the three commands (30_encoding.md R35, R38). -/

namespace Sys2Proof

theorem append_toNat {m n : Nat} (x : BitVec m) (y : BitVec n) : (x ++ y).toNat = x.toNat * 2 ^ n + y.toNat := by
  rw [BitVec.toNat_append, ← Nat.shiftLeft_add_eq_or_of_lt y.isLt, Nat.shiftLeft_eq]

/-- The word with the given fields, as a number (30_encoding.md R33). -/
theorem pack_toNat (x : Fields) : (pack x).toNat = x.data.toNat * 256 + x.rsv.toNat * 4 + x.op.toNat := by
  rw [pack, append_toNat, append_toNat]
  omega

theorem encode_init : encode .init = 0x0000 := by decide

theorem encode_final : encode .final = 0x0002 := by decide

/-- `ABSORB d -> (d << 8) | 0x0001` (30_encoding.md R38), as a number. -/
theorem encode_absorb_toNat (d : Byte) : (encode (.absorb d)).toNat = d.toNat * 256 + 1 := by
  simpa [encode, Instr.fields] using pack_toNat (Instr.absorb d).fields

/-- The mask of INIT and FINAL keeps the whole word. -/
theorem and_wholeMask (w : CmdWord) : w &&& 0xFFFF = w := BitVec.and_allOnes

/-- The mask of ABSORB leaves the byte of `RSV` and `OP`. -/
theorem and_lowMask_eq_one_iff (w : CmdWord) : w &&& 0x00FF = 0x0001 ↔ w.toNat % 256 = 1 := by
  rw [← BitVec.toNat_inj, BitVec.toNat_and]
  exact iff_of_eq (congrArg (· = 1) (Nat.and_two_pow_sub_one_eq_mod w.toNat 8))

/-- The words in ABSORB's row are the words of ABSORB, with bits 15 to 8 as the byte. -/
theorem encode_absorb_of_row {w : CmdWord} (h : w &&& 0x00FF = 0x0001) :
    encode (.absorb (BitVec.ofNat 8 (w.toNat / 256))) = w := by
  have low := (and_lowMask_eq_one_iff w).1 h
  apply BitVec.eq_of_toNat_eq
  rw [encode_absorb_toNat, BitVec.toNat_ofNat]
  omega

theorem encode_absorb_row (d : Byte) : encode (.absorb d) &&& 0x00FF = 0x0001 := by
  rw [and_lowMask_eq_one_iff, encode_absorb_toNat]
  omega

/-- Settles O2: a word in a row is the word of the row's command, and the word of a command is in its row. -/
theorem decodeFollowsTheTable : Obligations.DecodeFollowsTheTable := by
  intro w
  simp only [decode_eq_instr_iff, and_wholeMask, encode_init, encode_final]
  refine ⟨Eq.symm, encode_absorb_of_row, Eq.symm, fun notInit notAbsorb notFinal => ?_⟩
  apply decode_illegal_of_ne_encode
  rintro (_ | d | _) rfl
  · exact notInit encode_init
  · exact notAbsorb (encode_absorb_row d)
  · exact notFinal encode_final

end Sys2Proof
end

section
/-! The step of an illegal word (30_encoding.md R36) and the status word (R37). -/

namespace Sys2Proof.Machine

theorem issueWord_illegal {w : CmdWord} {r : IllegalReason} (h : decode w = .illegal r) (s : State) :
    issueWord w s = illegalCommand s := by
  rw [issueWord, h]

/-- In an unfaulted block an illegal word latches its fault (30_encoding.md R36). -/
theorem illegalCommand_running {s : State} (h : s.fault = .noFault) :
    illegalCommand s = .next (latchFault .illegalCommand s) :=
  unlessFaulted_running h _

/-- Settles O5: the illegal words are those whose fields are not well-formed, and each latches IllegalCommand. -/
theorem illegalWordOnlyLatchesItsFault : Obligations.IllegalWordOnlyLatchesItsFault := by
  refine ⟨fun w => ?_, fun w s r running illegal => ?_⟩
  · rw [← wellFormed_eq_false_iff]
    exact decodeFields_illegal_iff (unpack w)
  · rw [issueWord_illegal illegal, illegalCommand_running running, latchFault]

theorem Phase.code_ne_three (p : Phase) : p.code ≠ 3 := by
  cases p <;> decide

theorem FaultCode.code_le_five (c : FaultCode) : c.code.toNat ≤ 5 := by
  cases c <;> decide

theorem status_reserved (s : State) : s.status.extractLsb' 5 11 = 0 := by
  rw [State.status, BitVec.append_assoc]
  exact BitVec.extractLsb'_append_eq_left

theorem status_fault (s : State) : s.status.extractLsb' 2 3 = s.fault.code := by
  rw [State.status, BitVec.extractLsb'_append_eq_of_le (Nat.le_refl 2)]
  exact BitVec.extractLsb'_append_eq_right

theorem status_phase (s : State) : s.status.extractLsb' 0 2 = s.phase.code :=
  BitVec.extractLsb'_append_eq_right

/-- The status word as a number (30_encoding.md R37). -/
theorem status_toNat (s : State) : s.status.toNat = 4 * s.fault.code.toNat + s.phase.code.toNat := by
  have reserved : (0 : BitVec 11).toNat = 0 := rfl
  rw [State.status, append_toNat, append_toNat, reserved]
  omega

/-- Settles O37: the codes as tabled, and the status word field by field. -/
theorem statusWordShowsPhaseAndFault : Obligations.StatusWordShowsPhaseAndFault :=
  ⟨⟨rfl, rfl, rfl⟩, ⟨rfl, rfl, rfl, rfl, rfl, rfl⟩, fun s =>
    ⟨status_reserved s, status_fault s, status_phase s, s.phase.code_ne_three, s.fault.code_le_five, status_toNat s⟩⟩

end Sys2Proof.Machine
end

section
/-! The mixing primitive G: its eight steps, and its application in place (41_mixing.md R47, R48). -/

namespace Sys2Proof.Machine

/-- An application of G at distinct positions writes its four results there (41_mixing.md R48). -/
theorem applyG_getElem_positions {p : Positions} (distinct : [p.pa, p.pb, p.pc, p.pd].Nodup) (mx my : Word)
    (v : Vector Word 16) :
    (applyG p mx my v)[p.pa] = (mixG v[p.pa] v[p.pb] v[p.pc] v[p.pd] mx my).a ∧
    (applyG p mx my v)[p.pb] = (mixG v[p.pa] v[p.pb] v[p.pc] v[p.pd] mx my).b ∧
    (applyG p mx my v)[p.pc] = (mixG v[p.pa] v[p.pb] v[p.pc] v[p.pd] mx my).c ∧
    (applyG p mx my v)[p.pd] = (mixG v[p.pa] v[p.pb] v[p.pc] v[p.pd] mx my).d := by
  obtain ⟨⟨ab, ac, ad⟩, ⟨bc, bd⟩, cd⟩ :
      (p.pa ≠ p.pb ∧ p.pa ≠ p.pc ∧ p.pa ≠ p.pd) ∧ (p.pb ≠ p.pc ∧ p.pb ≠ p.pd) ∧ p.pc ≠ p.pd := by
    simpa using distinct
  refine ⟨?_, ?_, ?_, ?_⟩
  · rw [applyG_getElem, if_neg ad, if_neg ac, if_neg ab, if_pos rfl]
  · rw [applyG_getElem, if_neg bd, if_neg bc, if_pos rfl]
  · rw [applyG_getElem, if_neg cd, if_pos rfl]
  · rw [applyG_getElem, if_pos rfl]

/-- The frame of an application of G (41_mixing.md R48). -/
theorem applyG_getElem_of_ne {p : Positions} {k : Fin 16} (ha : k ≠ p.pa) (hb : k ≠ p.pb) (hc : k ≠ p.pc)
    (hd : k ≠ p.pd) (mx my : Word) (v : Vector Word 16) : (applyG p mx my v)[k] = v[k] := by
  rw [applyG_getElem, if_neg hd, if_neg hc, if_neg hb, if_neg ha]

/-- Settles O32: the positions of each group are distinct, so no result overwrites another. -/
theorem mixWorksInPlace : Obligations.MixWorksInPlace := by
  intro i mx my v
  obtain ⟨atA, atB, atC, atD⟩ := applyG_getElem_positions (group_nodup i) mx my v
  exact ⟨atA, atB, atC, atD, fun _ ha hb hc hd => applyG_getElem_of_ne ha hb hc hd mx my v, group_nodup i⟩

/-- Settles O30: each of the four rotations is Lean's own `rotateRight`, and the steps are those of `mixG`. -/
theorem mixRunsItsEightSteps : Obligations.MixRunsItsEightSteps := by
  intro a b c d mx my a1 b1 c1 d1 a2 b2 c2 d2 ha1 hd1 hc1 hb1 ha2 hd2 hc2 hb2
  rw [← rotr_eq_rotateRight _ (by decide)] at hd1 hb1 hd2 hb2
  subst ha1 hd1 hc1 hb1 ha2 hd2 hc2 hb2
  rfl

end Sys2Proof.Machine
end

section
/-! The compression engine COMPRESS: its working vector, the order of its applications and its fold
(42_compression.md R51 to R55). -/

namespace Sys2Proof.Machine

/-- The working vector before the first round, with the three XORs in place (42_compression.md R51, R52). -/
theorem workingVector_eq (h : Vector Word 8) (t0 t1 f : Word) :
    workingVector h t0 t1 f =
      #v[h[0], h[1], h[2], h[3], h[4], h[5], h[6], h[7], iv[0], iv[1], iv[2], iv[3],
        iv[4] ^^^ t0, iv[5] ^^^ t1, iv[6] ^^^ f, iv[7]] := rfl

/-- Settles O33: each word is read off the written-out working vector. -/
theorem workingVectorIsSeeded : Obligations.WorkingVectorIsSeeded := by
  intro h t0 t1 f
  rw [workingVector_eq]
  refine ⟨fun i => ?_, fun i => ?_, rfl, rfl, rfl, rfl⟩
  · fin_cases i <;> rfl
  · fin_cases i <;> rfl

theorem applicationOrder_eq_finRange : applicationOrder = List.finRange 8 := by decide

theorem roundOrder_eq_finRange : roundOrder = List.finRange 10 := by decide

/-- The ten rounds are one sequence of applications, round by round (42_compression.md R54). -/
theorem mixRounds_eq_foldl (m v : Vector Word 16) :
    mixRounds m v =
      ((List.finRange 10).flatMap fun r => (List.finRange 8).map fun i => (r, i)).foldl
        (fun v ri => application m ri.1 v ri.2) v := by
  simp only [← roundOrder_eq_finRange, ← applicationOrder_eq_finRange, List.foldl_flatMap, List.foldl_map]
  rfl

/-- The fold back into the chaining value, word by word (42_compression.md R55). -/
theorem foldBack_getElem (h : Vector Word 8) (v : Vector Word 16) (i : Fin 8) :
    (foldBack h v)[i] = h[i] ^^^ v[i.val] ^^^ v[i.val + 8] :=
  Vector.getElem_ofFn i.isLt

/-- Settles O34: the rounds are the eighty applications in order, and the fold is that of R55. -/
theorem compressRunsEightyApplications : Obligations.CompressRunsEightyApplications := by
  refine ⟨fun h m t0 t1 f i => ?_, rfl⟩
  rw [compress, foldBack_getElem, mixRounds_eq_foldl]
  rfl

end Sys2Proof.Machine
end

section
/-! The 64-bit byte counter (43_controller.md R57): the increment by value, and as a step of the state's count. -/

namespace Sys2Proof.Machine

theorem ctrAdd_n0_toNat (t0 t1 : Word) (k : Fin 65) :
    (ctrAdd t0 t1 k).n0.toNat = (t0.toNat + k.val) % 2 ^ 32 := by
  have kMod : k.val % 2 ^ 32 = k.val := Nat.mod_eq_of_lt (by omega)
  rw [ctrAdd, BitVec.toNat_add, BitVec.toNat_ofNat, kMod]

theorem ctrAdd_n1 (t0 t1 : Word) (k : Fin 65) :
    (ctrAdd t0 t1 k).n1 = if (ctrAdd t0 t1 k).n0.toNat < k.val then t1 + 1 else t1 := by
  simp only [ctrAdd, decide_eq_true_eq]

theorem ctrAdd_n1_toNat (t0 t1 : Word) (k : Fin 65) :
    (ctrAdd t0 t1 k).n1.toNat = (t1.toNat + if (ctrAdd t0 t1 k).n0.toNat < k.val then 1 else 0) % 2 ^ 32 := by
  rw [ctrAdd_n1]
  split
  · exact BitVec.toNat_add t1 1
  · exact (Nat.mod_eq_of_lt t1.isLt).symm

theorem ctrAdd_ovf_iff (t0 t1 : Word) (k : Fin 65) :
    (ctrAdd t0 t1 k).ovf = true ↔ t1 = 0xFFFFFFFF ∧ (ctrAdd t0 t1 k).n0.toNat < k.val := by
  simp [ctrAdd]

/-- The unsigned compare of R57 finds the carry of the low half. -/
theorem ctrAdd_carry_iff (t0 t1 : Word) (k : Fin 65) :
    (ctrAdd t0 t1 k).n0.toNat < k.val ↔ 2 ^ 32 ≤ t0.toNat + k.val := by
  rw [ctrAdd_n0_toNat]
  omega

theorem word_eq_allOnes_iff (w : Word) : w = 0xFFFFFFFF ↔ w.toNat = 2 ^ 32 - 1 :=
  BitVec.toNat_inj.symm

/-- The overflow is that of the 64-bit sum (43_controller.md R57, R58). -/
theorem ctrAdd_ovf_iff_wide (t0 t1 : Word) (k : Fin 65) :
    (ctrAdd t0 t1 k).ovf = true ↔ 2 ^ 64 ≤ t1.toNat * 2 ^ 32 + t0.toNat + k.val := by
  rw [ctrAdd_ovf_iff, ctrAdd_carry_iff, word_eq_allOnes_iff]
  omega

/-- Without overflow the two halves are the 64-bit sum (43_controller.md R57). -/
theorem ctrAdd_sum_of_fits {t0 t1 : Word} {k : Fin 65} (fits : (ctrAdd t0 t1 k).ovf = false) :
    (ctrAdd t0 t1 k).n1.toNat * 2 ^ 32 + (ctrAdd t0 t1 k).n0.toNat = t1.toNat * 2 ^ 32 + t0.toNat + k.val := by
  have small : ¬ 2 ^ 64 ≤ t1.toNat * 2 ^ 32 + t0.toNat + k.val := by
    rw [← ctrAdd_ovf_iff_wide, fits]
    exact Bool.false_ne_true
  rw [ctrAdd_n1_toNat]
  simp only [ctrAdd_carry_iff]
  rw [ctrAdd_n0_toNat]
  split <;> omega

/-- Settles O19: the halves by value, and the carry as the low half's overflow. -/
theorem ctrAddIsTheWideSum : Obligations.CtrAddIsTheWideSum :=
  ⟨fun t0 t1 k => ⟨ctrAdd_n0_toNat t0 t1 k, ctrAdd_n1_toNat t0 t1 k, ctrAdd_ovf_iff t0 t1 k,
    ctrAdd_ovf_iff_wide t0 t1 k, ctrAdd_sum_of_fits⟩, by decide⟩

theorem ctrAdd_overflows {s : State} {k : Fin 65} (h : 2 ^ 64 ≤ s.count + k.val) :
    (ctrAdd s.t0 s.t1 k).ovf = true :=
  (ctrAdd_ovf_iff_wide s.t0 s.t1 k).2 h

theorem ctrAdd_fits {s : State} {k : Fin 65} (h : s.count + k.val < 2 ^ 64) :
    (ctrAdd s.t0 s.t1 k).ovf = false :=
  Bool.eq_false_iff.2 fun o => Nat.not_le.2 h ((ctrAdd_ovf_iff_wide s.t0 s.t1 k).1 o)

theorem takeCount_count {s : State} {k : Fin 65} (fits : (ctrAdd s.t0 s.t1 k).ovf = false) :
    (takeCount (ctrAdd s.t0 s.t1 k) s).count = s.count + k.val :=
  ctrAdd_sum_of_fits fits

end Sys2Proof.Machine
end

section
/-! INIT (43_controller.md R59). -/

namespace Sys2Proof.Machine

/-- The eight words of H0 (40_tables.md R45). -/
theorem initialChaining_eq :
    initialChaining =
      #v[0x6B08E647, 0xBB67AE85, 0x3C6EF372, 0xA54FF53A, 0x510E527F, 0x9B05688C, 0x1F83D9AB, 0x5BE0CD19] := by
  decide

theorem startHash_bufByte (s : State) (j : Fin 64) : (startHash s).bufByte j = 0 := rfl

theorem exec_init_running {s : State} (running : s.fault = .noFault) : exec .init s = .next (startHash s) :=
  unlessFaulted_running running _

/-- Settles O14: the next state is `startHash s`, field by field. -/
theorem initFollowsItsRule : Obligations.InitFollowsItsRule := by
  intro s running
  exact ⟨startHash s, exec_init_running running, initialChaining_eq, startHash_t0 s, startHash_t1 s, startHash_f s,
    startHash_bufByte s, startHash_buflen s, startHash_phase s, startHash_fault s, startHash_pending s,
    startHash_draws s⟩

end Sys2Proof.Machine
end

section
/-! The phase check of ABSORB and FINAL before INIT and after FINAL (60_exceptions.md R71). -/

namespace Sys2Proof.Machine

theorem whileAbsorbing_uninit {s : State} (h : s.phase = .uninit) (c : FaultCode) (go : Result) :
    whileAbsorbing s c go = raiseFault .uninitialised s := by
  rw [whileAbsorbing, h]

theorem whileAbsorbing_finalized {s : State} (h : s.phase = .finalized) (c : FaultCode) (go : Result) :
    whileAbsorbing s c go = raiseFault c s := by
  rw [whileAbsorbing, h]

end Sys2Proof.Machine
end

section
/-! ABSORB (43_controller.md R60): one equation per case, and the byte it writes. -/

namespace Sys2Proof.Machine

theorem exec_absorb_running {s : State} (running : s.fault = .noFault) (d : Byte) :
    exec (.absorb d) s = whileAbsorbing s .absorbAfterFinal
      (if room : s.buflen.val < 64 then .next (appendByte ⟨s.buflen.val, room⟩ d s)
       else counting 64 s fun s => .next (appendByte 0 d (compressBlock s))) :=
  unlessFaulted_running running _

theorem exec_absorb_uninit {s : State} (running : s.fault = .noFault) (uninit : s.phase = .uninit) (d : Byte) :
    exec (.absorb d) s = .next (latchFault .uninitialised s) := by
  rw [exec_absorb_running running, whileAbsorbing_uninit uninit, raiseFault]

theorem exec_absorb_finalized {s : State} (running : s.fault = .noFault) (finalized : s.phase = .finalized)
    (d : Byte) : exec (.absorb d) s = .next (latchFault .absorbAfterFinal s) := by
  rw [exec_absorb_running running, whileAbsorbing_finalized finalized, raiseFault]

theorem exec_absorb_room {s : State} {j : Fin 64} (running : s.fault = .noFault) (absorbing : s.phase = .absorbing)
    (room : s.buflen.val = j.val) (d : Byte) : exec (.absorb d) s = .next (appendByte j d s) := by
  have below : s.buflen.val < 64 := room ▸ j.isLt
  have position : (⟨s.buflen.val, below⟩ : Fin 64) = j := Fin.ext room
  rw [exec_absorb_running running, whileAbsorbing_absorbing absorbing, dif_pos below, position]

theorem exec_absorb_full {s : State} (running : s.fault = .noFault) (absorbing : s.phase = .absorbing)
    (full : s.buflen.val = 64) (d : Byte) :
    exec (.absorb d) s = counting 64 s fun s => .next (appendByte 0 d (compressBlock s)) := by
  rw [exec_absorb_running running, whileAbsorbing_absorbing absorbing, dif_neg (by omega)]

theorem exec_absorb_overflow {s : State} (running : s.fault = .noFault) (absorbing : s.phase = .absorbing)
    (full : s.buflen.val = 64) (past : 2 ^ 64 ≤ s.count + 64) (d : Byte) :
    exec (.absorb d) s = .next (latchFault .counterOverflow s) := by
  have overflow : (ctrAdd s.t0 s.t1 64).ovf = true := ctrAdd_overflows past
  rw [exec_absorb_full running absorbing full, counting_overflow overflow, raiseFault]

theorem exec_absorb_compresses {s : State} (running : s.fault = .noFault) (absorbing : s.phase = .absorbing)
    (full : s.buflen.val = 64) (within : s.count + 64 < 2 ^ 64) (d : Byte) :
    exec (.absorb d) s = .next (appendByte 0 d (compressBlock (takeCount (ctrAdd s.t0 s.t1 64) s))) := by
  have fits : (ctrAdd s.t0 s.t1 64).ovf = false := ctrAdd_fits within
  rw [exec_absorb_full running absorbing full, counting_fits fits]

theorem appendByte_bufByte_self (j : Fin 64) (d : Byte) (s : State) : (appendByte j d s).bufByte j = d :=
  memRead_memWrite_self s.buf j d

theorem appendByte_bufByte_other {j k : Fin 64} (h : k ≠ j) (d : Byte) (s : State) :
    (appendByte j d s).bufByte k = s.bufByte k :=
  memRead_memWrite_other s.buf j d (Fin.val_ne_of_ne h)

/-- Settles O16: each case by the equation of its phase, its length and its count. -/
theorem absorbFollowsItsRule : Obligations.AbsorbFollowsItsRule := by
  intro d s running
  refine ⟨fun uninit => exec_absorb_uninit running uninit d, fun finalized => exec_absorb_finalized running finalized d,
    fun j absorbing room => ?_, fun absorbing full past => exec_absorb_overflow running absorbing full past d,
    fun absorbing full within => ?_⟩
  · exact ⟨_, exec_absorb_room running absorbing room d, rfl, appendByte_bufByte_self j d s,
      fun k other => appendByte_bufByte_other other d s, rfl, rfl, rfl, rfl, rfl, rfl, rfl, rfl⟩
  · exact ⟨_, exec_absorb_compresses running absorbing full within d, takeCount_count (ctrAdd_fits within), rfl, rfl,
      appendByte_bufByte_self 0 d _, fun k other => appendByte_bufByte_other other d _, rfl, rfl, rfl, rfl, rfl⟩

end Sys2Proof.Machine
end

section
/-! FINAL (43_controller.md R61): one equation per case. -/

namespace Sys2Proof.Machine

theorem exec_final_running {s : State} (running : s.fault = .noFault) :
    exec .final s = whileAbsorbing s .finalAfterFinal
      (counting s.buflen s fun s => .next (finishHash (compressBlock (padTail (raiseFlag s))))) :=
  unlessFaulted_running running _

theorem exec_final_uninit {s : State} (running : s.fault = .noFault) (uninit : s.phase = .uninit) :
    exec .final s = .next (latchFault .uninitialised s) := by
  rw [exec_final_running running, whileAbsorbing_uninit uninit, raiseFault]

theorem exec_final_finalized {s : State} (running : s.fault = .noFault) (finalized : s.phase = .finalized) :
    exec .final s = .next (latchFault .finalAfterFinal s) := by
  rw [exec_final_running running, whileAbsorbing_finalized finalized, raiseFault]

theorem exec_final_absorbing {s : State} (running : s.fault = .noFault) (absorbing : s.phase = .absorbing) :
    exec .final s =
      counting s.buflen s fun s => .next (finishHash (compressBlock (padTail (raiseFlag s)))) := by
  rw [exec_final_running running, whileAbsorbing_absorbing absorbing]

theorem exec_final_overflow {s : State} (running : s.fault = .noFault) (absorbing : s.phase = .absorbing)
    (past : 2 ^ 64 ≤ s.count + s.buflen.val) : exec .final s = .next (latchFault .counterOverflow s) := by
  rw [exec_final_absorbing running absorbing, counting_overflow (ctrAdd_overflows past), raiseFault]

theorem exec_final_finishes {s : State} (running : s.fault = .noFault) (absorbing : s.phase = .absorbing)
    (within : s.count + s.buflen.val < 2 ^ 64) :
    exec .final s =
      .next (finishHash (compressBlock (padTail (raiseFlag (takeCount (ctrAdd s.t0 s.t1 s.buflen) s))))) := by
  rw [exec_final_absorbing running absorbing, counting_fits (ctrAdd_fits within)]

/-- Settles O17: each case by the equation of its phase and its count, the padding by `padTail_bufByte`. -/
theorem finalFollowsItsRule : Obligations.FinalFollowsItsRule := by
  intro s running
  refine ⟨exec_final_uninit running, exec_final_finalized running, exec_final_overflow running,
    fun absorbing within => ?_⟩
  exact ⟨_, exec_final_finishes running absorbing within, takeCount_count (ctrAdd_fits within), rfl,
    padTail_bufByte (raiseFlag _), rfl, rfl, rfl, rfl⟩

end Sys2Proof.Machine
end

section
/-! The digest port (43_controller.md R62, 20_memory.md R25). -/

namespace Sys2Proof.Machine

theorem digest_isSome_iff (s : State) : s.digest.isSome = true ↔ s.phase = .finalized ∧ s.fault = .noFault := by
  by_cases valid : s.phase = .finalized ∧ s.fault = .noFault <;> simp [State.digest, valid]

/-- A value on the digest port is the bytes of the chaining value (43_controller.md R62). -/
theorem eq_digestBytes_of_digest {s : State} {x : Vector Byte 32} (h : s.digest = some x) : x = digestBytes s.h := by
  have valid : s.phase = .finalized ∧ s.fault = .noFault := (digest_isSome_iff s).1 (by rw [h]; rfl)
  rw [State.digest, if_pos valid, Option.some.injEq] at h
  exact h.symm

theorem digestBytes_getElem (h : Vector Word 8) (j : Fin 32) :
    (digestBytes h)[j] = (bytesLE h[j.val / 4])[j.val % 4] :=
  Vector.getElem_ofFn j.isLt

/-- Settles O36: the port's value is `digestBytes`, whose bytes are those of `bytesLE`. -/
theorem digestPortAfterFinalOnly : Obligations.DigestPortAfterFinalOnly := by
  refine ⟨digest_isSome_iff, fun s x j h => ?_⟩
  rw [eq_digestBytes_of_digest h, digestBytes_getElem, bytesLE_getElem_toNat]

end Sys2Proof.Machine
end

section
/-! The faulted block (60_exceptions.md R73): a word has a next state only where no fault is latched. -/

namespace Sys2Proof.Machine

theorem running_of_exec_next {i : Instr} {s t : State} (h : exec i s = .next t) : s.fault = .noFault := by
  cases i with
  | init => exact (exec_init_next h).1
  | absorb d => exact (exec_absorb_next h).1
  | final => exact (exec_final_next h).1

theorem running_of_issueWord_next {w : CmdWord} {s t : State} (h : issueWord w s = .next t) :
    s.fault = .noFault := by
  rcases issueWord_cases w s with ⟨i, -, issued⟩ | ⟨r, -, issued⟩
  · exact running_of_exec_next (issued ▸ h)
  · exact (unlessFaulted_next (issued ▸ h)).1

/-- Settles O10: a next state of a command or a word comes from an unfaulted block, and reset is taken in every state. -/
theorem faultedBlockTakesNoCommand : Obligations.FaultedBlockTakesNoCommand := by
  intro s faulted
  refine ⟨fun _ _ h => faulted (running_of_exec_next h), fun _ _ h => faulted (running_of_issueWord_next h),
    fun e t h => ?_, _, rfl, applyReset_fault s⟩
  cases e with
  | cmd w => exact absurd (running_of_issueWord_next h) faulted
  | rst => rfl

end Sys2Proof.Machine
end

section
/-! The precision of faults (60_exceptions.md R72): a word either completes without a fault or latches one and does
nothing else. -/

namespace Sys2Proof.Machine

theorem exec_absorb_clear_or_latched {d : Byte} {s t : State} (h : exec (.absorb d) s = .next t) :
    t.fault = .noFault ∨ ∃ c, t = latchFault c s := by
  obtain ⟨running, ⟨-, latched⟩ | ⟨-, latched⟩ | ⟨-, j, -, rfl⟩ | ⟨-, -, -, latched⟩ | ⟨-, -, -, rfl⟩⟩ :=
    exec_absorb_next h
  · exact .inr ⟨_, latched⟩
  · exact .inr ⟨_, latched⟩
  · exact .inl running
  · exact .inr ⟨_, latched⟩
  · exact .inl running

theorem exec_final_clear_or_latched {s t : State} (h : exec .final s = .next t) :
    t.fault = .noFault ∨ ∃ c, t = latchFault c s := by
  obtain ⟨running, ⟨-, latched⟩ | ⟨-, latched⟩ | ⟨-, -, latched⟩ | ⟨-, -, rfl⟩⟩ := exec_final_next h
  · exact .inr ⟨_, latched⟩
  · exact .inr ⟨_, latched⟩
  · exact .inr ⟨_, latched⟩
  · exact .inl running

theorem exec_clear_or_latched {i : Instr} {s t : State} (h : exec i s = .next t) :
    t.fault = .noFault ∨ ∃ c, t = latchFault c s := by
  cases i with
  | init =>
    obtain ⟨running, rfl⟩ := exec_init_next h
    exact .inl running
  | absorb d => exact exec_absorb_clear_or_latched h
  | final => exact exec_final_clear_or_latched h

theorem issueWord_clear_or_latched {w : CmdWord} {s t : State} (h : issueWord w s = .next t) :
    t.fault = .noFault ∨ ∃ c, t = latchFault c s := by
  rcases issueWord_cases w s with ⟨i, -, issued⟩ | ⟨r, -, issued⟩
  · exact exec_clear_or_latched (issued ▸ h)
  · obtain ⟨-, raised⟩ := unlessFaulted_next (issued ▸ h)
    exact .inr ⟨_, (Host.Outcome.next.inj raised).symm⟩

theorem digest_of_faulted {s : State} (faulted : s.fault ≠ .noFault) : s.digest = none :=
  if_neg fun valid => faulted valid.2

/-- Settles O12: the next state is `latchFault c s`, so every other field is as before. -/
theorem faultsArePrecise : Obligations.FaultsArePrecise := by
  intro w s t issued faulted
  obtain ⟨c, rfl⟩ := (issueWord_clear_or_latched issued).resolve_left faulted
  exact ⟨latchFault_h s c, latchFault_t0 s c, latchFault_t1 s c, latchFault_f s c, latchFault_buf s c,
    latchFault_buflen s c, latchFault_phase s c, latchFault_pending s c, latchFault_draws s c, status_fault _,
    digest_of_faulted faulted⟩

end Sys2Proof.Machine
end

section
/-! The order of the checks (60_exceptions.md R70, R71): the fault each word ends in is `faultRaised`. -/

namespace Sys2Proof.Machine

section FaultRaised

variable {w : CmdWord} {s : State}

theorem faultRaised_illegal {r : IllegalReason} (h : decode w = .illegal r) : faultRaised w s = .illegalCommand := by
  rw [faultRaised, h]

theorem faultRaised_init (h : decode w = .instr .init) : faultRaised w s = .noFault := by
  rw [faultRaised, h]

theorem faultRaised_absorb_absorbing {d : Byte} (h : decode w = .instr (.absorb d)) (absorbing : s.phase = .absorbing) :
    faultRaised w s = if s.buflen.val = 64 ∧ 2 ^ 64 ≤ s.count + 64 then .counterOverflow else .noFault := by
  rw [faultRaised, h, absorbing]

theorem faultRaised_final_absorbing (h : decode w = .instr .final) (absorbing : s.phase = .absorbing) :
    faultRaised w s = if 2 ^ 64 ≤ s.count + s.buflen.val then .counterOverflow else .noFault := by
  rw [faultRaised, h, absorbing]

theorem illegalCommand_raises {r : IllegalReason} (running : s.fault = .noFault) (h : decode w = .illegal r) :
    ∃ t, illegalCommand s = .next t ∧ t.fault = faultRaised w s :=
  ⟨_, illegalCommand_running running, (faultRaised_illegal h).symm⟩

theorem exec_init_raises (running : s.fault = .noFault) (h : decode w = .instr .init) :
    ∃ t, exec .init s = .next t ∧ t.fault = faultRaised w s :=
  ⟨_, exec_init_running running, running.trans (faultRaised_init h).symm⟩

/-- ABSORB while ABSORBING passes the phase check, and only a full buffer is counted (60_exceptions.md R71). -/
theorem exec_absorb_absorbing_raises {d : Byte} (running : s.fault = .noFault) (absorbing : s.phase = .absorbing)
    (h : decode w = .instr (.absorb d)) : ∃ t, exec (.absorb d) s = .next t ∧ t.fault = faultRaised w s := by
  rw [faultRaised_absorb_absorbing h absorbing]
  by_cases full : s.buflen.val = 64
  · by_cases past : 2 ^ 64 ≤ s.count + 64
    · rw [if_pos ⟨full, past⟩]
      exact ⟨_, exec_absorb_overflow running absorbing full past d, latchFault_fault s _⟩
    · rw [if_neg fun both => past both.2]
      exact ⟨_, exec_absorb_compresses running absorbing full (Nat.not_le.1 past) d, running⟩
  · have room : s.buflen.val < 64 := by omega
    rw [if_neg fun both => full both.1]
    exact ⟨_, exec_absorb_room (j := ⟨s.buflen.val, room⟩) running absorbing rfl d, running⟩

theorem exec_absorb_raises {d : Byte} (running : s.fault = .noFault) (h : decode w = .instr (.absorb d)) :
    ∃ t, exec (.absorb d) s = .next t ∧ t.fault = faultRaised w s := by
  cases phase : s.phase with
  | uninit => exact ⟨_, exec_absorb_uninit running phase d, by rw [faultRaised, h, phase, latchFault_fault]⟩
  | absorbing => exact exec_absorb_absorbing_raises running phase h
  | finalized => exact ⟨_, exec_absorb_finalized running phase d, by rw [faultRaised, h, phase, latchFault_fault]⟩

/-- FINAL while ABSORBING passes the phase check and always counts (60_exceptions.md R71). -/
theorem exec_final_absorbing_raises (running : s.fault = .noFault) (absorbing : s.phase = .absorbing)
    (h : decode w = .instr .final) : ∃ t, exec .final s = .next t ∧ t.fault = faultRaised w s := by
  rw [faultRaised_final_absorbing h absorbing]
  by_cases past : 2 ^ 64 ≤ s.count + s.buflen.val
  · rw [if_pos past]
    exact ⟨_, exec_final_overflow running absorbing past, latchFault_fault s _⟩
  · rw [if_neg past]
    exact ⟨_, exec_final_finishes running absorbing (Nat.not_le.1 past), running⟩

theorem exec_final_raises (running : s.fault = .noFault) (h : decode w = .instr .final) :
    ∃ t, exec .final s = .next t ∧ t.fault = faultRaised w s := by
  cases phase : s.phase with
  | uninit => exact ⟨_, exec_final_uninit running phase, by rw [faultRaised, h, phase, latchFault_fault]⟩
  | absorbing => exact exec_final_absorbing_raises running phase h
  | finalized => exact ⟨_, exec_final_finalized running phase, by rw [faultRaised, h, phase, latchFault_fault]⟩

theorem exec_raises {i : Instr} (running : s.fault = .noFault) (h : decode w = .instr i) :
    ∃ t, exec i s = .next t ∧ t.fault = faultRaised w s := by
  cases i with
  | init => exact exec_init_raises running h
  | absorb d => exact exec_absorb_raises running h
  | final => exact exec_final_raises running h

theorem issueWord_raises (w : CmdWord) (running : s.fault = .noFault) :
    ∃ t, issueWord w s = .next t ∧ t.fault = faultRaised w s := by
  rcases issueWord_cases w s with ⟨i, decoded, issued⟩ | ⟨r, illegal, issued⟩
  · rw [issued]
    exact exec_raises running decoded
  · rw [issued]
    exact illegalCommand_raises running illegal

end FaultRaised

/-- Settles O13: every word of an unfaulted block raises `faultRaised`, and the codes are those of the table. -/
theorem oneFaultInTheOrderOfTheChecks : Obligations.OneFaultInTheOrderOfTheChecks :=
  ⟨fun w _ running => issueWord_raises w running, fun _ _ _ faulted h => faulted (running_of_issueWord_next h),
    ⟨rfl, rfl, rfl, rfl, rfl, rfl⟩⟩

end Sys2Proof.Machine
end

section
/-! Reset (70_reset_and_hazards.md R80, R81), and the ports of a block that holds no message and no fault. -/

namespace Sys2Proof.Machine

/-- UNINIT and no fault are both numbered 0 (30_encoding.md R37). -/
theorem status_eq_zero_of_uninit {s : State} (uninit : s.phase = .uninit) (running : s.fault = .noFault) :
    s.status = 0 := by
  apply BitVec.eq_of_toNat_eq
  rw [status_toNat, uninit, running]
  rfl

theorem digest_of_uninit {s : State} (uninit : s.phase = .uninit) : s.digest = none :=
  if_neg fun valid => Phase.noConfusion (uninit.symm.trans valid.1)

/-- Settles O8: `applyReset` has a next state in every state, and the ports follow from its phase and its fault. -/
theorem resetIsTakenAtAnyStep : Obligations.ResetIsTakenAtAnyStep := by
  intro s
  have uninit : (applyReset s).phase = .uninit := applyReset_phase s
  have running : (applyReset s).fault = .noFault := applyReset_fault s
  exact ⟨applyReset s, rfl, uninit, running, applyReset_pending s, status_eq_zero_of_uninit uninit running,
    digest_of_uninit uninit⟩

end Sys2Proof.Machine
end

section
/-! Decode and encode as inverse functions, and the count of the legal words (30_encoding.md sections 3 and 5). -/

namespace Sys2Proof

@[simp] theorem decode_encode (i : Instr) : decode (encode i) = .instr i :=
  (decode_eq_instr_iff (encode i) i).2 rfl

theorem encode_injective : Function.Injective encode := by
  intro i j h
  have sameCommand : Decoded.instr i = .instr j := by rw [← decode_encode i, h, decode_encode]
  exact Decoded.instr.inj sameCommand

/-- Settles O3: both directions of `decode_eq_instr_iff`. -/
theorem decodeAndEncodeAgree : Obligations.DecodeAndEncodeAgree :=
  ⟨fun i _ => decode_encode i, fun w i => (decode_eq_instr_iff w i).1⟩

/-- The words of the three commands (30_encoding.md R35). -/
def legalWords : Finset CmdWord :=
  insert (encode .init) (insert (encode .final) (Finset.univ.image fun d => encode (.absorb d)))

theorem mem_legalWords (w : CmdWord) : w ∈ legalWords ↔ ∃ i, encode i = w := by
  simp only [legalWords, Finset.mem_insert, Finset.mem_image, Finset.mem_univ, true_and]
  constructor
  · rintro (rfl | rfl | ⟨d, rfl⟩)
    · exact ⟨.init, rfl⟩
    · exact ⟨.final, rfl⟩
    · exact ⟨.absorb d, rfl⟩
  · rintro ⟨_ | d | _, rfl⟩
    · exact .inl rfl
    · exact .inr (.inr ⟨d, rfl⟩)
    · exact .inr (.inl rfl)

theorem card_byte : Fintype.card Byte = 256 := (FinEnum.card_eq_fintypeCard (α := Byte)).symm

theorem card_cmdWord : Fintype.card CmdWord = 65536 := (FinEnum.card_eq_fintypeCard (α := CmdWord)).symm

/-- "1 + 256 + 1" (30_encoding.md section 3). -/
theorem card_legalWords : legalWords.card = 258 := by
  have absorbs : (Finset.univ.image fun d : Byte => encode (.absorb d)).card = 256 := by
    rw [Finset.card_image_of_injective _ fun d e h => Instr.absorb.inj (encode_injective h), Finset.card_univ,
      card_byte]
  have finalFresh : encode .final ∉ Finset.univ.image fun d : Byte => encode (.absorb d) := by
    simp [encode_injective.eq_iff]
  have initFresh : encode .init ∉ insert (encode .final) (Finset.univ.image fun d : Byte => encode (.absorb d)) := by
    simp [encode_injective.eq_iff]
  rw [legalWords, Finset.card_insert_of_notMem initFresh, Finset.card_insert_of_notMem finalFresh, absorbs]

theorem isLegal_iff_mem_legalWords (w : CmdWord) : (decode w).isLegal = true ↔ w ∈ legalWords := by
  rw [mem_legalWords]
  cases h : decode w with
  | instr i => exact iff_of_true rfl ⟨i, (decode_eq_instr_iff w i).1 h⟩
  | illegal r =>
    refine iff_of_false Bool.false_ne_true fun ⟨i, encoded⟩ => ?_
    rw [(decode_eq_instr_iff w i).2 encoded] at h
    cases h

/-- Settles O4: the legal words are `legalWords`, and the illegal ones its complement. -/
theorem legalWordsAreTwoHundredFiftyEight : Obligations.LegalWordsAreTwoHundredFiftyEight := by
  have legal : Finset.univ.filter (fun w : CmdWord => (decode w).isLegal = true) = legalWords := by
    ext w
    simp [isLegal_iff_mem_legalWords]
  have illegal : Finset.univ.filter (fun w : CmdWord => (decode w).isLegal = false) = legalWordsᶜ := by
    ext w
    simp [← isLegal_iff_mem_legalWords]
  refine ⟨legal ▸ card_legalWords, ?_⟩
  rw [illegal, Finset.card_compl, card_legalWords, card_cmdWord]

/-- Settles O1: the words are literals, and the decoder is run on each. -/
theorem writtenOutWordsDecode : Obligations.WrittenOutWordsDecode := by
  refine ⟨by decide, by decide, by decide, by decide, by decide, fun w listed => ?_⟩
  simp only [List.mem_cons, List.not_mem_nil, or_false] at listed
  rcases listed with rfl | rfl | rfl | rfl | rfl | rfl | rfl | rfl <;> exact ⟨_, rfl⟩

end Sys2Proof
end

section
/-! One step of the block: the oldest event is taken, a word runs the command it decodes to, and a faulted block stops
(20_memory.md sections 3 and 4, 60_exceptions.md R73). -/

namespace Sys2Proof.Machine

theorem step_idle {s : State} (idle : s.pending = []) : step s = .next s := by
  rw [step, takeNext, idle]

theorem step_event {s : State} {e : PortEvent} {rest : List PortEvent} (queued : s.pending = e :: rest) :
    step s = takeEvent e { s with pending := rest } := by
  rw [step, takeNext, queued]

theorem issueWord_instr {w : CmdWord} {i : Instr} (h : decode w = .instr i) (s : State) : issueWord w s = exec i s := by
  rw [issueWord, h]

theorem step_word {s : State} {w : CmdWord} {i : Instr} {rest : List PortEvent} (queued : s.pending = .cmd w :: rest)
    (h : decode w = .instr i) : step s = exec i { s with pending := rest } :=
  (step_event queued).trans (issueWord_instr h _)

theorem ofNat_toNat_mod (w : CmdWord) : BitVec.ofNat 16 (w.toNat % 2 ^ 16) = w := by
  rw [Nat.mod_eq_of_lt w.isLt, BitVec.ofNat_toNat, BitVec.setWidth_eq]

/-- The step after the host has issued a command's word runs the command on the state before (30_encoding.md R32). -/
theorem step_withFetchWord {w : CmdWord} {i : Instr} (h : decode w = .instr i) (s : State) :
    step (s.withFetchWord 16 w.toNat) = exec i s := by
  have issued : s.withFetchWord 16 w.toNat = issueFirst w s := by rw [State.withFetchWord, ofNat_toNat_mod]
  rw [issued]
  exact step_word (issueFirst_pending s w) h

theorem decodeTableWord_instr {w : CmdWord} {i : Instr} (h : decode w = .instr i) :
    decodeTableWord 16 w.toNat = some i := by
  rw [decodeTableWord, if_pos (Nat.le_refl 16), ofNat_toNat_mod, h]

/-- Settles O6: the equations of a step on a queued event, and of the issue of a word. -/
theorem stepRunsTheDecodedCommand : Obligations.StepRunsTheDecodedCommand :=
  ⟨fun _ _ _ => step_event, fun _ _ _ => step_event, fun _ _ _ _ => step_word,
    fun s _ _ h => step_withFetchWord h s, fun _ _ => decodeTableWord_instr⟩

/-- Settles O7: the equation of a step with nothing queued. -/
theorem idleBlockHoldsItsState : Obligations.IdleBlockHoldsItsState := fun _ => step_idle

/-- Settles O9: the two fields are literals, and the ports follow from them. -/
theorem resetStateIsUninitialised : Obligations.ResetStateIsUninitialised :=
  ⟨rfl, rfl, status_eq_zero_of_uninit rfl rfl, digest_of_uninit rfl⟩

theorem exec_faulted {s : State} (faulted : s.fault ≠ .noFault) (i : Instr) :
    exec i s = .fault (.stopped s.fault) := by
  cases i with
  | init => exact unlessFaulted_stopped faulted _
  | absorb d => exact unlessFaulted_stopped faulted _
  | final => exact unlessFaulted_stopped faulted _

theorem issueWord_faulted {s : State} (faulted : s.fault ≠ .noFault) (w : CmdWord) :
    issueWord w s = .fault (.stopped s.fault) := by
  rcases issueWord_cases w s with ⟨i, -, issued⟩ | ⟨r, -, issued⟩
  · exact issued.trans (exec_faulted faulted i)
  · exact issued.trans (unlessFaulted_stopped faulted _)

/-- Settles O11: the fault check is the first of every command and of every illegal word. -/
theorem stopNamesTheLatchedFault : Obligations.StopNamesTheLatchedFault :=
  fun _ faulted => ⟨exec_faulted faulted, issueWord_faulted faulted⟩

/-- What INIT leaves depends on the fields it does not write alone (43_controller.md R59). -/
theorem startHash_congr {s s' : State} (fault : s.fault = s'.fault) (pending : s.pending = s'.pending)
    (draws : s.draws = s'.draws) : startHash s = startHash s' := by
  rw [startHash, startHash, fault, pending, draws]

/-- Settles O15: `startHash` reads no data field, so a second one writes the same values. -/
theorem initForgetsThePast : Obligations.InitForgetsThePast := by
  refine ⟨fun s s' running running' pending draws => ?_, fun s t h => ?_⟩
  · rw [exec_init_running running, exec_init_running running',
      startHash_congr (running.trans running'.symm) pending draws]
  · obtain ⟨running, rfl⟩ := exec_init_next h
    rw [exec_init_running ((startHash_fault s).trans running)]
    exact congrArg _ (startHash_congr rfl rfl rfl)

end Sys2Proof.Machine
end

section
/-! The constant tables (40_tables.md sections 2 and 3). -/

namespace Sys2Proof.Machine

/-- Settles O28: the constants are literals. -/
theorem parameterWordAndFlagValue : Obligations.ParameterWordAndFlagValue :=
  ⟨by decide, by decide, by decide, by decide, by decide, rfl⟩

/-- No value stands twice in a row of the schedule (40_tables.md R41). -/
theorem sigma_row_injective : ∀ r : Fin 10, Function.Injective (fun k : Fin 16 => sigma[r][k]) := by decide

/-- Settles O29: an injective map of 0..15 to itself is a bijection, and the two indices of an application differ. -/
theorem sigmaRowsArePermutations : Obligations.SigmaRowsArePermutations := by
  refine ⟨fun r => Finite.injective_iff_bijective.1 (sigma_row_injective r), fun r i same => ?_⟩
  have := sigma_row_injective r (a₁ := ⟨2 * i.val, by omega⟩) (a₂ := ⟨2 * i.val + 1, by omega⟩) same
  simp at this

end Sys2Proof.Machine
end

section
/-! The invariant (43_controller.md section 4, 10_state.md section 2): each update of the state keeps it. -/

namespace Sys2Proof.Machine

/-- Settles O39: the buffer of `State.reset` is empty and its phase is UNINIT. -/
theorem resetMeetsTheInvariant : Obligations.ResetMeetsTheInvariant := ⟨wf_nil, nofun, nofun⟩

section KeepsTheInvariant

variable {s : State}

theorem latchFault_inv (h : s.Inv) (c : FaultCode) : (latchFault c s).Inv := h

theorem startHash_inv (s : State) : (startHash s).Inv :=
  ⟨wf_nil, fun _ => ⟨rfl, rfl, fun _ => ⟨rfl, rfl, rfl, rfl⟩⟩, nofun⟩

theorem applyReset_inv (s : State) : (applyReset s).Inv := ⟨memWriteAll_wf _ _ wf_nil, nofun, nofun⟩

/-- After an ABSORB the buffer is not empty, so the clause on an empty buffer says nothing. -/
theorem appendByte_inv (h : s.Inv) (j : Fin 64) (d : Byte) : (appendByte j d s).Inv := by
  obtain ⟨canonical, absorbing, finalized⟩ := h
  refine ⟨memWrite_wf canonical j d, fun phase => ?_, finalized⟩
  obtain ⟨flag, count, -⟩ := absorbing phase
  exact ⟨flag, count, fun empty => absurd empty (Fin.succ_ne_zero j)⟩

theorem ctrAdd_block_mod (t0 t1 : Word) : (ctrAdd t0 t1 64).n0.toNat % 64 = t0.toNat % 64 := by
  have sum : (ctrAdd t0 t1 64).n0.toNat = (t0.toNat + 64) % 2 ^ 32 := ctrAdd_n0_toNat t0 t1 64
  omega

/-- Counting and compressing a full block (43_controller.md R60). -/
theorem compressCounted_inv (h : s.Inv) (full : s.buflen.val = 64) :
    (compressBlock (takeCount (ctrAdd s.t0 s.t1 64) s)).Inv := by
  obtain ⟨canonical, absorbing, finalized⟩ := h
  refine ⟨canonical, fun phase => ?_, finalized⟩
  obtain ⟨flag, count, -⟩ := absorbing phase
  have notEmpty : s.buflen ≠ 0 := fun empty => by simp [empty] at full
  exact ⟨flag, (ctrAdd_block_mod s.t0 s.t1).trans count, fun empty => absurd empty notEmpty⟩

/-- The end of FINAL needs the canonical form alone, because FINAL has written the flag (43_controller.md R61). -/
theorem finish_inv (canonical : Memory.wf s.buf) :
    (finishHash (compressBlock (padTail (raiseFlag s)))).Inv :=
  ⟨memWriteAll_wf _ _ canonical, nofun, fun _ => rfl⟩

theorem exec_inv {i : Instr} {t : State} (h : s.Inv) (done : exec i s = .next t) : t.Inv := by
  cases i with
  | init =>
    obtain ⟨-, rfl⟩ := exec_init_next done
    exact startHash_inv s
  | absorb d =>
    obtain ⟨-, ⟨-, rfl⟩ | ⟨-, rfl⟩ | ⟨-, j, -, rfl⟩ | ⟨-, -, -, rfl⟩ | ⟨-, full, -, rfl⟩⟩ := exec_absorb_next done
    · exact latchFault_inv h _
    · exact latchFault_inv h _
    · exact appendByte_inv h j d
    · exact latchFault_inv h _
    · exact appendByte_inv (compressCounted_inv h full) 0 d
  | final =>
    obtain ⟨-, ⟨-, rfl⟩ | ⟨-, rfl⟩ | ⟨-, -, rfl⟩ | ⟨-, -, rfl⟩⟩ := exec_final_next done
    · exact latchFault_inv h _
    · exact latchFault_inv h _
    · exact latchFault_inv h _
    · obtain ⟨canonical, -, -⟩ := h
      exact finish_inv canonical

theorem issueWord_inv {w : CmdWord} {t : State} (h : s.Inv) (done : issueWord w s = .next t) : t.Inv := by
  rcases issueWord_cases w s with ⟨i, -, issued⟩ | ⟨r, -, issued⟩
  · exact exec_inv h (issued ▸ done)
  · obtain ⟨-, raised⟩ := unlessFaulted_next (issued ▸ done)
    exact Host.Outcome.next.inj raised ▸ latchFault_inv h _

end KeepsTheInvariant

/-- Settles O40: a step is idle, a reset or the issue of a word; the invariant does not speak of the queue. -/
theorem everyStepKeepsTheInvariant : Obligations.EveryStepKeepsTheInvariant := by
  intro s t h done
  rcases step_cases s with ⟨-, idle⟩ | ⟨rest, -, reset⟩ | ⟨w, rest, -, issued⟩
  · exact Host.Outcome.next.inj (idle ▸ done) ▸ h
  · exact Host.Outcome.next.inj (reset ▸ done) ▸ applyReset_inv _
  · exact issueWord_inv (s := { s with pending := rest }) h (issued ▸ done)

end Sys2Proof.Machine
end

section
/-! What a command can do to the counter, the flag and the phase (10_state.md sections 2 and 3). -/

namespace Sys2Proof.Machine

/-- Settles O20: only the two counting branches and INIT write the counter. -/
theorem counterChangesOnlyByTheIncrement : Obligations.CounterChangesOnlyByTheIncrement := by
  intro i s t done
  cases i with
  | init =>
    obtain ⟨-, rfl⟩ := exec_init_next done
    exact .inr (.inl ⟨rfl, rfl, rfl⟩)
  | absorb d =>
    obtain ⟨-, ⟨-, rfl⟩ | ⟨-, rfl⟩ | ⟨-, j, -, rfl⟩ | ⟨-, -, -, rfl⟩ | ⟨-, full, fits, rfl⟩⟩ := exec_absorb_next done
    · exact .inl ⟨rfl, rfl⟩
    · exact .inl ⟨rfl, rfl⟩
    · exact .inl ⟨rfl, rfl⟩
    · exact .inl ⟨rfl, rfl⟩
    · exact .inr (.inr (.inl ⟨⟨d, rfl⟩, full, takeCount_count fits⟩))
  | final =>
    obtain ⟨-, ⟨-, rfl⟩ | ⟨-, rfl⟩ | ⟨-, -, rfl⟩ | ⟨-, fits, rfl⟩⟩ := exec_final_next done
    · exact .inl ⟨rfl, rfl⟩
    · exact .inl ⟨rfl, rfl⟩
    · exact .inl ⟨rfl, rfl⟩
    · exact .inr (.inr (.inr ⟨rfl, takeCount_count fits⟩))

theorem exec_absorb_flag_phase {d : Byte} {s t : State} (done : exec (.absorb d) s = .next t) :
    t.f = s.f ∧ t.phase = s.phase := by
  obtain ⟨-, ⟨-, rfl⟩ | ⟨-, rfl⟩ | ⟨-, j, -, rfl⟩ | ⟨-, -, -, rfl⟩ | ⟨-, -, -, rfl⟩⟩ := exec_absorb_next done
  all_goals exact ⟨rfl, rfl⟩

/-- FINAL either latches a fault, which leaves the flag and the phase, or finishes the hash from ABSORBING. -/
theorem exec_final_flag_phase {s t : State} (done : exec .final s = .next t) :
    (t.f = s.f ∧ t.phase = s.phase) ∨ (s.phase = .absorbing ∧ t.f = 0xFFFFFFFF ∧ t.phase = .finalized) := by
  obtain ⟨-, ⟨-, rfl⟩ | ⟨-, rfl⟩ | ⟨-, -, rfl⟩ | ⟨absorbing, -, rfl⟩⟩ := exec_final_next done
  · exact .inl ⟨rfl, rfl⟩
  · exact .inl ⟨rfl, rfl⟩
  · exact .inl ⟨rfl, rfl⟩
  · exact .inr ⟨absorbing, rfl, rfl⟩

/-- Settles O22: of the three commands ABSORB keeps the flag, and a FINAL that keeps it has faulted. -/
theorem flagIsWrittenByInitAndFinalOnly : Obligations.FlagIsWrittenByInitAndFinalOnly := by
  intro i s t done changed
  cases i with
  | init =>
    obtain ⟨-, rfl⟩ := exec_init_next done
    exact .inl ⟨rfl, rfl⟩
  | absorb d => exact absurd (exec_absorb_flag_phase done).1 changed
  | final =>
    rcases exec_final_flag_phase done with ⟨kept, -⟩ | ⟨-, flag, -⟩
    · exact absurd kept changed
    · exact .inr ⟨rfl, flag⟩

theorem exec_phase_moves {i : Instr} {s t : State} (done : exec i s = .next t) (moved : t.phase ≠ s.phase) :
    (i = .init ∧ t.phase = .absorbing) ∨ (i = .final ∧ s.phase = .absorbing ∧ t.phase = .finalized) := by
  cases i with
  | init =>
    obtain ⟨-, rfl⟩ := exec_init_next done
    exact .inl ⟨rfl, rfl⟩
  | absorb d => exact absurd (exec_absorb_flag_phase done).2 moved
  | final =>
    rcases exec_final_flag_phase done with ⟨-, kept⟩ | ⟨absorbing, -, finalized⟩
    · exact absurd kept moved
    · exact .inr ⟨rfl, absorbing, finalized⟩

theorem issueWord_ne_uninit {w : CmdWord} {s t : State} (done : issueWord w s = .next t) (started : s.phase ≠ .uninit) :
    t.phase ≠ .uninit := by
  rcases issueWord_cases w s with ⟨i, -, issued⟩ | ⟨r, -, issued⟩
  · by_cases kept : t.phase = s.phase
    · rwa [kept]
    · rcases exec_phase_moves (issued ▸ done) kept with ⟨-, absorbing⟩ | ⟨-, -, finalized⟩
      · simp [absorbing]
      · simp [finalized]
  · obtain ⟨-, raised⟩ := unlessFaulted_next (issued ▸ done)
    exact Host.Outcome.next.inj raised ▸ started

/-- Settles O23: the phase moves of the commands, and no word leads back to UNINIT. -/
theorem phaseMovesOnlyByInitFinalAndReset : Obligations.PhaseMovesOnlyByInitFinalAndReset := by
  refine ⟨fun _ _ _ => exec_phase_moves, fun e s t taken uninit started => ?_⟩
  cases e with
  | cmd w => exact absurd uninit (issueWord_ne_uninit taken started)
  | rst => rfl

/-- The fault a command's next state holds is the one the order of the checks gives (60_exceptions.md R71). -/
theorem fault_of_exec_next {i : Instr} {s t : State} (done : exec i s = .next t) :
    t.fault = faultRaised (encode i) s := by
  obtain ⟨u, raised, fault⟩ := exec_raises (running_of_exec_next done) (decode_encode i)
  rw [raised] at done
  exact Host.Outcome.next.inj done ▸ fault

theorem count_lt (s : State) : s.count < 2 ^ 64 := by
  have low := s.t0.isLt
  have high := s.t1.isLt
  rw [State.count]
  omega

/-- A counter that holds whole blocks overflows only by a whole block at its last value (43_controller.md R58). -/
theorem overflow_iff_limit {s : State} (h : s.Inv) (absorbing : s.phase = .absorbing) :
    2 ^ 64 ≤ s.count + s.buflen.val ↔ s.buflen.val = 64 ∧ s.count = 2 ^ 64 - 64 := by
  obtain ⟨-, data, -⟩ := h
  obtain ⟨-, whole, -⟩ := data absorbing
  have blocks : s.count % 64 = 0 := by
    rw [State.count]
    omega
  have below := count_lt s
  have length := s.buflen.isLt
  omega

theorem overflowWhen_iff (p : Prop) [Decidable p] :
    (if p then FaultCode.counterOverflow else .noFault) = .counterOverflow ↔ p := by
  split <;> simp_all

theorem faultRaised_absorb_overflow_iff {w : CmdWord} {d : Byte} {s : State} (h : s.Inv)
    (decoded : decode w = .instr (.absorb d)) :
    faultRaised w s = .counterOverflow ↔
      s.phase = .absorbing ∧ s.buflen.val = 64 ∧ s.count = 2 ^ 64 - 64 := by
  cases phase : s.phase with
  | uninit => simp [faultRaised, decoded, phase]
  | finalized => simp [faultRaised, decoded, phase]
  | absorbing =>
    have limit := overflow_iff_limit h phase
    have atFull : s.buflen.val = 64 ∧ 2 ^ 64 ≤ s.count + 64 ↔ s.buflen.val = 64 ∧ s.count = 2 ^ 64 - 64 := by omega
    rw [faultRaised_absorb_absorbing decoded phase, overflowWhen_iff, atFull]
    exact (and_iff_right rfl).symm

theorem faultRaised_final_overflow_iff {w : CmdWord} {s : State} (h : s.Inv) (decoded : decode w = .instr .final) :
    faultRaised w s = .counterOverflow ↔
      s.phase = .absorbing ∧ s.buflen.val = 64 ∧ s.count = 2 ^ 64 - 64 := by
  cases phase : s.phase with
  | uninit => simp [faultRaised, decoded, phase]
  | finalized => simp [faultRaised, decoded, phase]
  | absorbing =>
    rw [faultRaised_final_absorbing decoded phase, overflowWhen_iff, overflow_iff_limit h phase]
    exact (and_iff_right rfl).symm

/-- Settles O21: `faultRaised` names the fault, and the invariant the one counter value it is possible at. -/
theorem overflowOnlyAtTheLimit : Obligations.OverflowOnlyAtTheLimit := by
  intro i s t h done
  rw [fault_of_exec_next done]
  cases i with
  | init => simp [faultRaised_init (decode_encode .init)]
  | absorb d => simp [faultRaised_absorb_overflow_iff h (decode_encode (.absorb d))]
  | final => simp [faultRaised_final_overflow_iff h (decode_encode .final)]

end Sys2Proof.Machine
end

section
/-! The full buffer (70_reset_and_hazards.md R84): the next command compresses it. -/

namespace Sys2Proof.Machine

/-- A full buffer has no bytes to pad. -/
theorem messageWords_padTail_full {s : State} (full : s.buflen.val = 64) :
    messageWords (padTail s).buf = messageWords s.buf := by
  refine messageWords_congr fun j => ?_
  have below : j.val < s.buflen.val := by omega
  exact (padTail_bufByte s j).trans (if_pos below)

theorem exec_absorb_of_full {s : State} (running : s.fault = .noFault) (absorbing : s.phase = .absorbing)
    (full : s.buflen.val = 64) (within : s.count + 64 < 2 ^ 64) (e : Byte) :
    ∃ u, exec (.absorb e) s = .next u ∧ u.count = s.count + 64 ∧
      u.h = compress s.h (messageWords s.buf) u.t0 u.t1 s.f :=
  ⟨_, exec_absorb_compresses running absorbing full within e, takeCount_count (ctrAdd_fits within), rfl⟩

theorem exec_final_of_full {s : State} (running : s.fault = .noFault) (absorbing : s.phase = .absorbing)
    (full : s.buflen.val = 64) (within : s.count + 64 < 2 ^ 64) :
    ∃ u, exec .final s = .next u ∧ u.count = s.count + 64 ∧
      u.h = compress s.h (messageWords s.buf) u.t0 u.t1 0xFFFFFFFF := by
  have withinLen : s.count + s.buflen.val < 2 ^ 64 := full ▸ within
  have counted := takeCount_count (ctrAdd_fits withinLen)
  rw [full] at counted
  refine ⟨_, exec_final_finishes running absorbing withinLen, counted, ?_⟩
  exact congrArg (compress s.h · _ _ _) (messageWords_padTail_full (s := raiseFlag (takeCount _ s)) full)

/-- Settles O18: the ABSORB at length 63 is `appendByte 63`, and the two commands after it find a full buffer. -/
theorem fullBlockWaitsForTheNextCommand : Obligations.FullBlockWaitsForTheNextCommand := by
  intro d e s running absorbing len flag within
  have absorbNext := exec_absorb_of_full (s := appendByte 63 d s) running absorbing rfl within e
  rw [appendByte_f, flag] at absorbNext
  exact ⟨appendByte 63 d s, exec_absorb_room running absorbing len d, rfl, rfl, rfl, absorbNext,
    exec_final_of_full (s := appendByte 63 d s) running absorbing rfl within⟩

end Sys2Proof.Machine
end

section
/-! The canonical form of the buffer is determined by what it reads as (log 8). -/

namespace Sys2Proof.Machine

/-- The cells of a canonical buffer are the addresses that read as a byte other than the unlisted one. -/
theorem mem_iff_memRead {m : Memory} (h : Memory.wf m) (c : Host.Cell) :
    c ∈ m ↔ memRead m c.1 = c.2 ∧ c.2 ≠ Memory.unlisted := by
  obtain ⟨a, b⟩ := c
  induction m with
  | nil => simp [memRead, eq_comm]
  | cons c' m ih =>
    obtain ⟨sorted, valid⟩ := h
    obtain ⟨first, sorted⟩ := List.pairwise_cons.1 sorted
    have tail := ih ⟨sorted, fun c hc => valid c (List.mem_cons_of_mem _ hc)⟩
    have valid' := (valid c' List.mem_cons_self).2
    by_cases here : c'.1 = a
    · have absent : (a, b) ∉ m := fun there => Nat.ne_of_lt (first _ there) here
      obtain ⟨a', b'⟩ := c'
      subst here
      simp only [List.mem_cons, absent, or_false, memRead, if_true]
      constructor
      · intro same
        cases same
        exact ⟨rfl, valid'⟩
      · rintro ⟨same, -⟩
        rw [same]
    · have other : (a, b) ≠ c' := fun same => here (same ▸ rfl)
      simp only [List.mem_cons, other, false_or, memRead, if_neg here, tail]

theorem wf_nodup {m : Memory} (h : Memory.wf m) : m.Nodup :=
  h.1.imp fun lt same => Nat.ne_of_lt lt (congrArg Prod.fst same)

/-- Two canonical buffers that read the same are the same list. -/
theorem wf_ext {m m' : Memory} (h : Memory.wf m) (h' : Memory.wf m') (same : ∀ k, memRead m k = memRead m' k) :
    m = m' := by
  have sameCells : ∀ c : Host.Cell, c ∈ m ↔ c ∈ m' := fun c => by
    rw [mem_iff_memRead h, mem_iff_memRead h', same]
  have perm : m.Perm m' := (List.perm_ext_iff_of_nodup (wf_nodup h) (wf_nodup h')).2 sameCells
  exact perm.eq_of_pairwise (fun _ _ _ _ lt gt => absurd gt (Nat.lt_asymm lt)) h.1 h'.1

theorem memRead_memWrite (m : Memory) (a : Fin 64) (b : Byte) (k : Nat) :
    memRead (memWrite m a b) k = if k = a.val then b else memRead m k := by
  split
  · next same => rw [same, memRead_memWrite_self]
  · next other => exact memRead_memWrite_other m a b other

/-- Writing the byte that is already there changes no byte, and so not the canonical list. -/
theorem memWrite_memRead {m : Memory} (h : Memory.wf m) {a : Fin 64} {b : Byte} (already : memRead m a.val = b) :
    memWrite m a b = m := by
  refine wf_ext (memWrite_wf h a b) h fun k => ?_
  rw [memRead_memWrite]
  split
  · next same => rw [same, already]
  · rfl

/-- Settles O27: a read after a write, and the canonical form with its uniqueness. -/
theorem bufferWriteIsOneByte : Obligations.BufferWriteIsOneByte := by
  refine fun m a b => ⟨fun k => ?_, fun h => ⟨memWrite_wf h a b, memWrite_memRead h⟩⟩
  simp only [memRead_memWrite, Fin.ext_iff]

end Sys2Proof.Machine
end

section
/-! The mixing primitive G as a bijection (41_mixing.md): it is two half-steps, and each has an inverse. -/

namespace Sys2Proof.Machine

/-- A rotation is undone by rotating the rest of the way round. -/
theorem rotr_rotr_rest (x : Word) {n : Nat} (pos : 0 < n) (lt : n < 32) : rotr (rotr x n) (32 - n) = x := by
  apply BitVec.eq_of_getLsbD_eq
  intro k hk
  have around : ((k + (32 - n)) % 32 + n) % 32 = k := by omega
  rw [rotr_getLsbD _ (by omega) hk, rotr_getLsbD x lt (Nat.mod_lt _ (by decide)), around]

theorem rotr_rest_rotr (x : Word) {n : Nat} (pos : 0 < n) (lt : n < 32) : rotr (rotr x (32 - n)) n = x := by
  have back : 32 - (32 - n) = n := by omega
  have undone := rotr_rotr_rest x (n := 32 - n) (by omega) (by omega)
  rwa [back] at undone

/-- Four of G's eight steps: one message word and two rotations (41_mixing.md R47). -/
def mixHalf (m : Word) (r1 r2 : Nat) (q : Quad) : Quad :=
  let a := q.a + q.b + m
  let d := rotr (q.d ^^^ a) r1
  let c := q.c + d
  let b := rotr (q.b ^^^ c) r2
  { a := a, b := b, c := c, d := d }

theorem mixG_eq_mixHalf (q : Quad) (mx my : Word) :
    mixG q.a q.b q.c q.d mx my = mixHalf my 8 7 (mixHalf mx 16 12 q) := rfl

/-- The four steps undone, the last one first. -/
def unmixHalf (m : Word) (r1 r2 : Nat) (q : Quad) : Quad :=
  let b := rotr q.b (32 - r2) ^^^ q.c
  { a := q.a - m - b, b := b, c := q.c - q.d, d := rotr q.d (32 - r1) ^^^ q.a }

section HalfStep

variable {r1 r2 : Nat} (pos1 : 0 < r1) (lt1 : r1 < 32) (pos2 : 0 < r2) (lt2 : r2 < 32)

include pos1 lt1 pos2 lt2

theorem unmixHalf_mixHalf (m : Word) (q : Quad) : unmixHalf m r1 r2 (mixHalf m r1 r2 q) = q := by
  simp only [mixHalf, unmixHalf, rotr_rotr_rest _ pos1 lt1, rotr_rotr_rest _ pos2 lt2, xor_cancel_right,
    BitVec.add_sub_cancel]

theorem mixHalf_unmixHalf (m : Word) (q : Quad) : mixHalf m r1 r2 (unmixHalf m r1 r2 q) = q := by
  simp only [mixHalf, unmixHalf, BitVec.sub_add_cancel, xor_cancel_right, rotr_rest_rotr _ pos1 lt1,
    rotr_rest_rotr _ pos2 lt2]

theorem mixHalf_bijective (m : Word) : Function.Bijective (mixHalf m r1 r2) :=
  Function.bijective_iff_has_inverse.2
    ⟨unmixHalf m r1 r2, unmixHalf_mixHalf pos1 lt1 pos2 lt2 m, mixHalf_unmixHalf pos1 lt1 pos2 lt2 m⟩

end HalfStep

/-- Settles O31: G is a half-step with `mx` and then one with `my`, and both are bijections. -/
theorem mixIsABijection : Obligations.MixIsABijection := by
  intro mx my
  have first := mixHalf_bijective (r1 := 16) (r2 := 12) (by decide) (by decide) (by decide) (by decide) mx
  have second := mixHalf_bijective (r1 := 8) (r2 := 7) (by decide) (by decide) (by decide) (by decide) my
  have halves : (fun q : Quad => mixG q.a q.b q.c q.d mx my) = mixHalf my 8 7 ∘ mixHalf mx 16 12 :=
    funext fun q => mixG_eq_mixHalf q mx my
  exact halves ▸ second.comp first

end Sys2Proof.Machine
end

section
/-! Applications of G at disjoint positions commute (42_compression.md). -/

namespace Sys2Proof.Machine

/-- The four positions of an application. -/
def Positions.all (p : Positions) : List (Fin 16) := [p.pa, p.pb, p.pc, p.pd]

theorem applyG_getElem_of_notMem {p : Positions} {k : Fin 16} (outside : k ∉ p.all) (mx my : Word)
    (v : Vector Word 16) : (applyG p mx my v)[k] = v[k] := by
  simp only [Positions.all, List.mem_cons, List.not_mem_nil, or_false, not_or] at outside
  obtain ⟨ha, hb, hc, hd⟩ := outside
  exact applyG_getElem_of_ne ha hb hc hd mx my v

/-- What an application writes depends on its own four words alone. -/
theorem applyG_getElem_congr {p : Positions} {k : Fin 16} (inside : k ∈ p.all) {v w : Vector Word 16}
    (same : ∀ j ∈ p.all, v[j] = w[j]) (mx my : Word) : (applyG p mx my v)[k] = (applyG p mx my w)[k] := by
  simp only [Positions.all, List.forall_mem_cons] at same
  obtain ⟨ha, hb, hc, hd, -⟩ := same
  simp only [Positions.all, List.mem_cons, List.not_mem_nil, or_false] at inside
  rw [applyG_getElem, applyG_getElem, ha, hb, hc, hd]
  rcases inside with rfl | rfl | rfl | rfl <;> simp only [ha, hb, hc, hd]

theorem vector_ext {v w : Vector Word 16} (same : ∀ k : Fin 16, v[k] = w[k]) : v = w :=
  Vector.ext fun k hk => same ⟨k, hk⟩

theorem applyG_comm {p q : Positions} (apart : ∀ k ∈ p.all, k ∉ q.all) (mx my nx ny : Word) (v : Vector Word 16) :
    applyG p mx my (applyG q nx ny v) = applyG q nx ny (applyG p mx my v) := by
  have outsideQ : ∀ j ∈ p.all, ∀ w : Vector Word 16, (applyG q nx ny w)[j] = w[j] :=
    fun j inP => applyG_getElem_of_notMem (apart j inP) nx ny
  have outsideP : ∀ j ∈ q.all, ∀ w : Vector Word 16, (applyG p mx my w)[j] = w[j] :=
    fun j inQ => applyG_getElem_of_notMem (fun inP => apart j inP inQ) mx my
  refine vector_ext fun k => ?_
  by_cases inP : k ∈ p.all
  · rw [outsideQ k inP, applyG_getElem_congr inP fun j inP => outsideQ j inP v]
  · by_cases inQ : k ∈ q.all
    · rw [outsideP k inQ, applyG_getElem_congr inQ fun j inQ => outsideP j inQ v]
    · simp only [applyG_getElem_of_notMem inP, applyG_getElem_of_notMem inQ]

/-- Two columns, and two diagonals, share no position (42_compression.md R53). -/
theorem group_disjoint :
    ∀ i j : Fin 8, i ≠ j → (i.val < 4 ↔ j.val < 4) → ∀ k ∈ group[i].all, k ∉ group[j].all := by
  decide

theorem application_comm (m : Vector Word 16) (r : Fin 10) {i j : Fin 8} (sameHalf : i.val < 4 ↔ j.val < 4)
    (v : Vector Word 16) :
    application m r (application m r v i) j = application m r (application m r v j) i := by
  by_cases same : i = j
  · rw [same]
  · exact applyG_comm (group_disjoint j i (Ne.symm same) sameHalf.symm) _ _ _ _ v

theorem foldl_application_perm (m : Vector Word 16) (r : Fin 10) {order given : List (Fin 8)}
    (perm : order.Perm given) (sameHalf : ∀ i ∈ given, ∀ j ∈ given, (i.val < 4 ↔ j.val < 4)) (v : Vector Word 16) :
    order.foldl (application m r) v = given.foldl (application m r) v :=
  perm.foldl_eq' (fun i hi j hj w =>
    application_comm m r (sameHalf i (perm.subset hi) j (perm.subset hj)) w) v

/-- Settles O35: the applications of one half commute pairwise, so any order of them folds to the same vector. -/
theorem columnsAndDiagonalsInAnyOrder : Obligations.ColumnsAndDiagonalsInAnyOrder := fun m v r _ =>
  ⟨fun perm => foldl_application_perm m r perm (by decide) v,
    fun perm => foldl_application_perm m r perm (by decide) v⟩

end Sys2Proof.Machine
end

section
/-! The words of source commands (30_encoding.md R38, R39). -/

namespace Sys2Proof.Machine

theorem assembleSource_wellFormed {c : SourceCommand} (h : c.wellFormed = true) :
    assembleSource c = some ((expand c).map encode) := if_pos h

/-- The word of an ABSORB by its operand: `(d << 8) | 0x0001` (30_encoding.md R38). -/
theorem encode_absorb_ofNat (n : Nat) :
    encode (.absorb (BitVec.ofNat 8 n)) = BitVec.ofNat 16 (n * 256 + 1) := by
  apply BitVec.eq_of_toNat_eq
  rw [encode_absorb_toNat, BitVec.toNat_ofNat, BitVec.toNat_ofNat]
  omega

theorem assembleSource_absorb {n : Nat} (h : n < 256) :
    assembleSource (.absorb n) = some [BitVec.ofNat 16 (n * 256 + 1)] := by
  rw [assembleSource_wellFormed (c := .absorb n) (decide_eq_true h), expand, List.map_singleton, encode_absorb_ofNat]

theorem assembleSource_absorb_outside {n : Nat} (h : 256 ≤ n) : assembleSource (.absorb n) = none :=
  if_neg fun inside => Nat.not_lt.2 h (of_decide_eq_true inside)

theorem map_encode_absorb (ns : List Nat) :
    (ns.map (fun n => Instr.absorb (BitVec.ofNat 8 n))).map encode = ns.map (fun n => BitVec.ofNat 16 (n * 256 + 1)) := by
  rw [List.map_map]
  exact List.map_congr_left fun n _ => encode_absorb_ofNat n

theorem all_operands {ns : List Nat} (h : ∀ n ∈ ns, n < 256) : ns.all (· < 256) = true :=
  List.all_eq_true.2 fun n hn => decide_eq_true (h n hn)

theorem assembleSource_update {ns : List Nat} (h : ∀ n ∈ ns, n < 256) :
    assembleSource (.update ns) = some (ns.map (fun n => BitVec.ofNat 16 (n * 256 + 1))) := by
  rw [assembleSource_wellFormed (c := .update ns) (all_operands h), expand, map_encode_absorb]

theorem assembleSource_hash {ns : List Nat} (h : ∀ n ∈ ns, n < 256) :
    assembleSource (.hash ns) = some (0x0000 :: (ns.map (fun n => BitVec.ofNat 16 (n * 256 + 1)) ++ [0x0002])) := by
  rw [assembleSource_wellFormed (c := .hash ns) (all_operands h), expand, List.map_cons, List.map_append,
    map_encode_absorb, List.map_singleton, encode_init, encode_final]

/-- Settles O38: one equation per source command, and `map` over an append. -/
theorem sourceCommandsAssemble : Obligations.SourceCommandsAssemble :=
  ⟨by rw [assembleSource_wellFormed rfl, expand, List.map_singleton, encode_init],
    by rw [assembleSource_wellFormed rfl, expand, List.map_singleton, encode_final],
    fun _ => assembleSource_absorb, fun _ => assembleSource_absorb_outside,
    fun _ h => ⟨assembleSource_update h, assembleSource_hash h⟩, fun _ _ => List.map_append⟩

end Sys2Proof.Machine
end

section
/-! Lines with quoted characters (30_encoding.md R38; log 14). -/

namespace Sys2Proof.Machine

/-- A character that neither ends a piece nor begins a quotation. -/
def isPlain (sep c : Char) : Bool := c != '\'' && c != '"' && c != sep

theorem onFirst_onFirst (front front' : List Char) (pieces : List (List Char)) :
    onFirst front (onFirst front' pieces) = onFirst (front ++ front') pieces := by
  cases pieces <;> simp [onFirst]

theorem splitOutside_quoted (sep c : Char) (cs : List Char) :
    splitOutside sep false ('\'' :: c :: '\'' :: cs) = onFirst ['\'', c, '\''] (splitOutside sep false cs) := by
  rw [splitOutside]

theorem splitOutside_plain {sep c : Char} (plain : isPlain sep c = true) (cs : List Char) :
    splitOutside sep false (c :: cs) = onFirst [c] (splitOutside sep false cs) := by
  simp only [isPlain, Bool.and_eq_true, bne_iff_ne] at plain
  obtain ⟨⟨notQuote, notText⟩, notSep⟩ := plain
  rw [splitOutside]
  · simp [notText, notSep]
  · exact fun _ _ _ quote => absurd quote notQuote

theorem splitOutside_sep {sep : Char} (notQuote : sep ≠ '\'') (cs : List Char) :
    splitOutside sep false (sep :: cs) = [] :: splitOutside sep false cs := by
  rw [splitOutside]
  · simp
  · exact fun _ _ _ quote => absurd quote notQuote

theorem onFirst_ne_nil (front : List Char) (pieces : List (List Char)) : onFirst front pieces ≠ [] := by
  cases pieces <;> simp [onFirst]

theorem splitOutside_ne_nil (sep : Char) (inText : Bool) (cs : List Char) : splitOutside sep inText cs ≠ [] := by
  unfold splitOutside
  split
  · simp
  · exact onFirst_ne_nil _ _
  · split
    · simp
    · exact onFirst_ne_nil _ _

theorem onFirst_nil {pieces : List (List Char)} (some : pieces ≠ []) : onFirst [] pieces = pieces := by
  cases pieces with
  | nil => exact absurd rfl some
  | cons piece pieces => rfl

theorem splitOutside_plain_append {sep : Char} {front : List Char} (plain : front.all (isPlain sep) = true)
    (cs : List Char) : splitOutside sep false (front ++ cs) = onFirst front (splitOutside sep false cs) := by
  induction front with
  | nil => exact (onFirst_nil (splitOutside_ne_nil sep false cs)).symm
  | cons c front ih =>
    rw [List.all_cons, Bool.and_eq_true] at plain
    obtain ⟨first, others⟩ := plain
    rw [List.cons_append, splitOutside_plain first, ih others, onFirst_onFirst]
    rfl

/-- A line whose body is a mnemonic, a blank and operands is the command they are read as. -/
theorem parseLine_command {line mnemonic operands : List Char} {c : SourceCommand}
    (body : trimBlanks ((splitOutside ';' false line).headD []) = mnemonic ++ ' ' :: operands)
    (solid : mnemonic.all (fun c => !isBlank c) = true)
    (read : readCommand (mnemonic.map Char.toUpper) (trimBlanks operands) = some c) : parseLine line = .command c := by
  have solid' : ∀ c ∈ mnemonic, (!isBlank c) = true := List.all_eq_true.1 solid
  have front : (mnemonic ++ ' ' :: operands).takeWhile (fun c => !isBlank c) = mnemonic := by
    rw [List.takeWhile_append_of_pos solid']
    simp [isBlank]
  have back : (mnemonic ++ ' ' :: operands).dropWhile (fun c => !isBlank c) = ' ' :: operands := by
    rw [List.dropWhile_append_of_pos solid']
    simp [isBlank]
  have trimmed : trimBlanks (' ' :: operands) = trimBlanks operands := rfl
  have more : mnemonic ++ ' ' :: operands ≠ [] := by simp
  simp only [parseLine, body, if_neg more, front, back, trimmed, read]

theorem splitOutside_plain_quoted {sep : Char} {front : List Char} (plain : front.all (isPlain sep) = true)
    (c : Char) (tail : List Char) :
    splitOutside sep false (front ++ '\'' :: c :: '\'' :: tail) =
      onFirst (front ++ ['\'', c, '\'']) (splitOutside sep false tail) := by
  rw [splitOutside_plain_append plain, splitOutside_quoted, onFirst_onFirst]

theorem readOperand_quoted {c : Char} (ascii : c.toNat < 128) : readOperand ['\'', c, '\''] = some c.toNat :=
  if_pos ascii

theorem readEntry_quoted {c : Char} (ascii : c.toNat < 128) : readEntry ['\'', c, '\''] = some [c.toNat] := by
  rw [readEntry, readOperand_quoted ascii]

/-- `ABSORB` of a quoted character, whatever follows that leaves the first piece of the line as it is. -/
theorem assembleLine_absorb_quoted {c : Char} (ascii : c.toNat < 128) {tail : List Char}
    (body : trimBlanks ((onFirst ("ABSORB ".toList ++ ['\'', c, '\'']) (splitOutside ';' false tail)).headD []) =
      "ABSORB".toList ++ ' ' :: ['\'', c, '\'']) :
    assembleLine ("ABSORB ".toList ++ '\'' :: c :: '\'' :: tail) = some [BitVec.ofNat 16 (c.toNat * 256 + 1)] := by
  rw [← splitOutside_plain_quoted (by decide)] at body
  have read : readCommand ("ABSORB".toList.map Char.toUpper) ['\'', c, '\''] = some (.absorb c.toNat) :=
    congrArg (Option.map SourceCommand.absorb) (readOperand_quoted ascii)
  rw [assembleLine, parseLine_command body (by decide) read]
  exact assembleSource_absorb (by omega)

/-- A list of two quoted characters is cut at the comma between them, and at none of its own. -/
theorem readOperands_two_quoted {c d : Char} (asciiC : c.toNat < 128) (asciiD : d.toNat < 128) :
    readOperands ('\'' :: c :: '\'' :: ',' :: ' ' :: ['\'', d, '\'']) = some [c.toNat, d.toNat] := by
  have pieces : splitOutside ',' false ('\'' :: c :: '\'' :: ',' :: ' ' :: ['\'', d, '\'']) =
      [['\'', c, '\''], ' ' :: ['\'', d, '\'']] := by
    rw [splitOutside_quoted, splitOutside_sep (by decide), splitOutside_plain (by decide), splitOutside_quoted]
    rfl
  have trimC : trimBlanks ['\'', c, '\''] = ['\'', c, '\''] := rfl
  have trimD : trimBlanks [' ', '\'', d, '\''] = ['\'', d, '\''] := rfl
  have noText : readText ('\'' :: c :: '\'' :: ',' :: ' ' :: ['\'', d, '\'']) = none := rfl
  rw [readOperands, if_neg (List.cons_ne_nil _ _), noText, pieces]
  simp [trimC, trimD, readEntry_quoted asciiC, readEntry_quoted asciiD]

theorem assembleLine_update_quoted {c d : Char} (asciiC : c.toNat < 128) (asciiD : d.toNat < 128) :
    assembleLine ("UPDATE ".toList ++ '\'' :: c :: '\'' :: (", ".toList ++ '\'' :: d :: '\'' :: [])) =
      some [BitVec.ofNat 16 (c.toNat * 256 + 1), BitVec.ofNat 16 (d.toNat * 256 + 1)] := by
  have body : trimBlanks ((splitOutside ';' false
      ("UPDATE ".toList ++ '\'' :: c :: '\'' :: (", ".toList ++ '\'' :: d :: '\'' :: []))).headD []) =
      "UPDATE".toList ++ ' ' :: ('\'' :: c :: '\'' :: ',' :: ' ' :: ['\'', d, '\'']) := by
    rw [splitOutside_plain_quoted (by decide), splitOutside_plain_quoted (by decide)]
    rfl
  have read : readCommand ("UPDATE".toList.map Char.toUpper) ('\'' :: c :: '\'' :: ',' :: ' ' :: ['\'', d, '\'']) =
      some (.update [c.toNat, d.toNat]) :=
    congrArg (Option.map SourceCommand.update) (readOperands_two_quoted asciiC asciiD)
  have bytes : ∀ n ∈ [c.toNat, d.toNat], n < 256 := by
    simp only [List.forall_mem_cons, List.not_mem_nil, false_imp_iff, implies_true, and_true]
    omega
  rw [assembleLine, parseLine_command body (by decide) read]
  exact assembleSource_update bytes

/-- Settles O44: a quoted character is taken as a whole, so no separator is seen in it. -/
theorem quotedCharactersAssemble : Obligations.QuotedCharactersAssemble := by
  refine ⟨fun c ascii => ?_, fun c comment ascii => ?_, fun _ _ => assembleLine_update_quoted⟩
  · exact assembleLine_absorb_quoted ascii (tail := []) rfl
  · refine assembleLine_absorb_quoted ascii (tail := ' ' :: ';' :: comment) ?_
    rw [splitOutside_plain (by decide), splitOutside_sep (by decide)]
    rfl

end Sys2Proof.Machine
end

section
/-! Two states the host cannot tell apart (10_state.md sections 2 and 5): every update keeps the agreement. -/

namespace Sys2Proof.Machine

section KeepsTheAgreement

variable {s s' : State}

theorem State.Agree.phase_eq (h : s.Agree s') : s.phase = s'.phase := h.1

theorem State.Agree.fault_eq (h : s.Agree s') : s.fault = s'.fault := h.2.1

theorem State.Agree.pending_eq (h : s.Agree s') : s.pending = s'.pending := h.2.2.1

/-- While ABSORBING only the stale bytes may differ (10_state.md R14). -/
theorem State.Agree.data_eq (h : s.Agree s') (absorbing : s.phase = .absorbing) :
    s.h = s'.h ∧ s.t0 = s'.t0 ∧ s.t1 = s'.t1 ∧ s.f = s'.f ∧ s.buflen = s'.buflen ∧
      ∀ j : Fin 64, j.val < s.buflen.val → s.bufByte j = s'.bufByte j := by
  obtain ⟨-, -, -, data, -⟩ := h
  exact data absorbing

/-- The counter is among the data that agree while ABSORBING. -/
theorem State.Agree.count_eq (h : s.Agree s') (absorbing : s.phase = .absorbing) : s'.count = s.count := by
  obtain ⟨-, ht0, ht1, -, -, -⟩ := h.data_eq absorbing
  rw [State.count, State.count, ht0, ht1]

theorem agree_of_next {r r' : Result} (hr : r = .next s) (hr' : r' = .next s') (h : s.Agree s') : Agree r r' := by
  rw [hr, hr']
  exact h

theorem latchFault_agree (h : s.Agree s') (c : FaultCode) : (latchFault c s).Agree (latchFault c s') := by
  obtain ⟨phase, -, pending, absorbing, finalized⟩ := h
  exact ⟨phase, rfl, pending, absorbing, finalized⟩

theorem startHash_agree (h : s.Agree s') : (startHash s).Agree (startHash s') := by
  obtain ⟨-, fault, pending, -, -⟩ := h
  exact ⟨rfl, fault, pending, fun _ => ⟨rfl, rfl, rfl, rfl, rfl, fun _ _ => rfl⟩, nofun⟩

theorem applyReset_agree (pending : s.pending = s'.pending) : (applyReset s).Agree (applyReset s') :=
  ⟨rfl, rfl, pending, nofun, nofun⟩

theorem appendByte_agree (h : s.Agree s') {j : Fin 64}
    (below : ∀ k : Fin 64, k.val < j.val → s.bufByte k = s'.bufByte k) (d : Byte) :
    (appendByte j d s).Agree (appendByte j d s') := by
  obtain ⟨phase, fault, pending, absorbing, finalized⟩ := h
  refine ⟨phase, fault, pending, fun p => ?_, finalized⟩
  obtain ⟨hh, ht0, ht1, hf, -, -⟩ := absorbing p
  refine ⟨hh, ht0, ht1, hf, rfl, fun k hk => ?_⟩
  by_cases new : k = j
  · rw [new, appendByte_bufByte_self, appendByte_bufByte_self]
  · rw [appendByte_bufByte_other new, appendByte_bufByte_other new]
    have ne := Fin.val_ne_of_ne new
    have le : k.val < j.val + 1 := hk
    exact below k (by omega)

theorem compressBlock_h_congr (hh : s.h = s'.h) (ht0 : s.t0 = s'.t0) (ht1 : s.t1 = s'.t1) (hf : s.f = s'.f)
    (bytes : ∀ k : Fin 64, s.bufByte k = s'.bufByte k) : (compressBlock s).h = (compressBlock s').h := by
  rw [compressBlock_h, compressBlock_h, hh, ht0, ht1, hf, messageWords_congr bytes]

/-- Compressing a block whose 64 bytes are all specified (43_controller.md R60). -/
theorem compressBlock_agree (h : s.Agree s') (absorbing : s.phase = .absorbing) (full : s.buflen.val = 64) :
    (compressBlock s).Agree (compressBlock s') := by
  obtain ⟨phase, fault, pending, data, -⟩ := h
  obtain ⟨hh, ht0, ht1, hf, len, bytes⟩ := data absorbing
  have newH := compressBlock_h_congr hh ht0 ht1 hf fun k => bytes k (by omega)
  exact ⟨phase, fault, pending, fun _ => ⟨newH, ht0, ht1, hf, len, bytes⟩, fun _ => newH⟩

theorem takeCount_agree (h : s.Agree s') (c : CtrSum) : (takeCount c s).Agree (takeCount c s') := by
  obtain ⟨phase, fault, pending, data, finalized⟩ := h
  refine ⟨phase, fault, pending, fun absorbing => ?_, finalized⟩
  obtain ⟨hh, -, -, hf, len, bytes⟩ := data absorbing
  exact ⟨hh, rfl, rfl, hf, len, bytes⟩

theorem ctrAdd_agree (h : s.Agree s') (absorbing : s.phase = .absorbing) (k : Fin 65) :
    ctrAdd s.t0 s.t1 k = ctrAdd s'.t0 s'.t1 k := by
  obtain ⟨-, ht0, ht1, -, -, -⟩ := h.data_eq absorbing
  rw [ht0, ht1]

/-- The padding overwrites every stale byte (43_controller.md R61). -/
theorem padTail_bufByte_agree (len : s.buflen = s'.buflen)
    (bytes : ∀ k : Fin 64, k.val < s.buflen.val → s.bufByte k = s'.bufByte k) (k : Fin 64) :
    (padTail s).bufByte k = (padTail s').bufByte k := by
  rw [padTail_bufByte, padTail_bufByte, ← len]
  split
  · next below => exact bytes k below
  · rfl

/-- The end of FINAL, which compresses a padded block (43_controller.md R61). -/
theorem finish_agree (h : s.Agree s') (absorbing : s.phase = .absorbing) :
    (finishHash (compressBlock (padTail (raiseFlag s)))).Agree
      (finishHash (compressBlock (padTail (raiseFlag s')))) := by
  obtain ⟨-, fault, pending, data, -⟩ := h
  obtain ⟨hh, ht0, ht1, -, len, bytes⟩ := data absorbing
  have padded : ∀ k : Fin 64, (padTail (raiseFlag s)).bufByte k = (padTail (raiseFlag s')).bufByte k :=
    padTail_bufByte_agree (s := raiseFlag s) (s' := raiseFlag s') len bytes
  have phase : ∀ u v : State, (finishHash u).phase = (finishHash v).phase := fun _ _ => rfl
  refine ⟨phase _ _, fault, pending, nofun, fun _ => ?_⟩
  rw [finishHash_h, finishHash_h]
  exact compressBlock_h_congr (s := padTail (raiseFlag s)) (s' := padTail (raiseFlag s')) hh ht0 ht1 rfl padded

end KeepsTheAgreement

section SameOutcome

variable {s s' : State} (h : s.Agree s')

include h

theorem exec_absorb_absorbing_agree (running : s.fault = .noFault) (absorbing : s.phase = .absorbing) (d : Byte) :
    Agree (exec (.absorb d) s) (exec (.absorb d) s') := by
  have running' : s'.fault = .noFault := h.fault_eq ▸ running
  have absorbing' : s'.phase = .absorbing := h.phase_eq ▸ absorbing
  obtain ⟨-, -, -, -, len, bytes⟩ := h.data_eq absorbing
  have len' : s'.buflen.val = s.buflen.val := congrArg Fin.val len.symm
  have count' := h.count_eq absorbing
  by_cases full : s.buflen.val = 64
  · by_cases past : 2 ^ 64 ≤ s.count + 64
    · exact agree_of_next (exec_absorb_overflow running absorbing full past d)
        (exec_absorb_overflow running' absorbing' (len'.trans full) (by rwa [count']) d) (latchFault_agree h _)
    · have within : s.count + 64 < 2 ^ 64 := Nat.not_le.1 past
      refine agree_of_next (exec_absorb_compresses running absorbing full within d)
        (exec_absorb_compresses running' absorbing' (len'.trans full) (by rwa [count']) d) ?_
      rw [← ctrAdd_agree h absorbing 64]
      exact appendByte_agree (compressBlock_agree (takeCount_agree h _) absorbing full)
        (fun _ below => absurd below (Nat.not_lt_zero _)) d
  · have room : s.buflen.val < 64 := by omega
    exact agree_of_next (exec_absorb_room (j := ⟨s.buflen.val, room⟩) running absorbing rfl d)
      (exec_absorb_room running' absorbing' len' d) (appendByte_agree h bytes d)

theorem exec_final_absorbing_agree (running : s.fault = .noFault) (absorbing : s.phase = .absorbing) :
    Agree (exec .final s) (exec .final s') := by
  have running' : s'.fault = .noFault := h.fault_eq ▸ running
  have absorbing' : s'.phase = .absorbing := h.phase_eq ▸ absorbing
  obtain ⟨-, -, -, -, len, -⟩ := h.data_eq absorbing
  have sum' : s'.count + s'.buflen.val = s.count + s.buflen.val := by rw [h.count_eq absorbing, len]
  by_cases past : 2 ^ 64 ≤ s.count + s.buflen.val
  · exact agree_of_next (exec_final_overflow running absorbing past)
      (exec_final_overflow running' absorbing' (by rwa [sum'])) (latchFault_agree h _)
  · have within : s.count + s.buflen.val < 2 ^ 64 := Nat.not_le.1 past
    refine agree_of_next (exec_final_finishes running absorbing within)
      (exec_final_finishes running' absorbing' (by rwa [sum'])) ?_
    rw [← len, ← ctrAdd_agree h absorbing s.buflen]
    exact finish_agree (takeCount_agree h _) absorbing

theorem exec_agree (running : s.fault = .noFault) (i : Instr) : Agree (exec i s) (exec i s') := by
  have running' : s'.fault = .noFault := h.fault_eq ▸ running
  cases i with
  | init => exact agree_of_next (exec_init_running running) (exec_init_running running') (startHash_agree h)
  | absorb d =>
    cases phase : s.phase with
    | uninit =>
      exact agree_of_next (exec_absorb_uninit running phase d) (exec_absorb_uninit running' (h.phase_eq ▸ phase) d)
        (latchFault_agree h _)
    | absorbing => exact exec_absorb_absorbing_agree h running phase d
    | finalized =>
      exact agree_of_next (exec_absorb_finalized running phase d)
        (exec_absorb_finalized running' (h.phase_eq ▸ phase) d) (latchFault_agree h _)
  | final =>
    cases phase : s.phase with
    | uninit =>
      exact agree_of_next (exec_final_uninit running phase) (exec_final_uninit running' (h.phase_eq ▸ phase))
        (latchFault_agree h _)
    | absorbing => exact exec_final_absorbing_agree h running phase
    | finalized =>
      exact agree_of_next (exec_final_finalized running phase) (exec_final_finalized running' (h.phase_eq ▸ phase))
        (latchFault_agree h _)

theorem illegalCommand_agree (running : s.fault = .noFault) : Agree (illegalCommand s) (illegalCommand s') :=
  agree_of_next (illegalCommand_running running) (illegalCommand_running (h.fault_eq ▸ running)) (latchFault_agree h _)

theorem issueWord_agree (w : CmdWord) : Agree (issueWord w s) (issueWord w s') := by
  by_cases running : s.fault = .noFault
  · cases decoded : decode w with
    | instr i =>
      rw [issueWord_instr decoded, issueWord_instr decoded]
      exact exec_agree h running i
    | illegal r =>
      rw [issueWord_illegal decoded, issueWord_illegal decoded]
      exact illegalCommand_agree h running
  · have faulted' : s'.fault ≠ .noFault := h.fault_eq ▸ running
    rw [issueWord_faulted running, issueWord_faulted faulted', h.fault_eq]
    rfl

theorem dequeued_agree (rest : List PortEvent) :
    State.Agree { s with pending := rest } { s' with pending := rest } := by
  obtain ⟨phase, fault, -, absorbing, finalized⟩ := h
  exact ⟨phase, fault, rfl, absorbing, finalized⟩

theorem step_agree : Agree (step s) (step s') := by
  have pending := h.pending_eq
  cases queued : s.pending with
  | nil =>
    rw [step_idle queued, step_idle (pending ▸ queued)]
    exact h
  | cons e rest =>
    rw [step_event queued, step_event (pending ▸ queued)]
    cases e with
    | rst => exact applyReset_agree rfl
    | cmd w => exact issueWord_agree (dequeued_agree h rest) w

theorem status_agree : s.status = s'.status := by
  rw [State.status, State.status, h.phase_eq, h.fault_eq]

theorem digest_agree : s.digest = s'.digest := by
  obtain ⟨phase, fault, -, -, finalized⟩ := h
  rw [State.digest, State.digest, ← phase, ← fault]
  split
  · next valid => rw [finalized valid.1]
  · rfl

end SameOutcome

/-- Settles O43: the ports read specified values alone, and so does every step. -/
theorem unspecifiedValuesNeverShow : Obligations.UnspecifiedValuesNeverShow :=
  fun _ _ h => ⟨status_agree h, digest_agree h, step_agree h⟩

end Sys2Proof.Machine
end

section
/-! After INIT and ABSORBs: what the counter, the buffer and the chaining value hold (43_controller.md R63, R64). -/

namespace Sys2Proof.Machine

/-- A counter's halves are those of its value (10_state.md R11). -/
theorem t0_eq_countLow (s : State) : s.t0 = countLow s.count := by
  have low := s.t0.isLt
  apply BitVec.eq_of_toNat_eq
  rw [countLow, BitVec.toNat_ofNat, State.count]
  omega

theorem t1_eq_countHigh (s : State) : s.t1 = countHigh s.count := by
  have low := s.t0.isLt
  have high := s.t1.isLt
  apply BitVec.eq_of_toNat_eq
  rw [countHigh, BitVec.toNat_ofNat, State.count]
  omega

/-- A buffer that holds block `i` has the words of block `i`. -/
theorem messageWords_eq_blockWords {m : Memory} {x : List Byte} {i : Nat}
    (holds : ∀ j : Fin 64, memRead m j.val = x.getD (64 * i + j.val) 0) : messageWords m = blockWords x i := by
  have at_ (n : Nat) (hn : n < 64) : memRead m n = x.getD (64 * i + n) 0 := holds ⟨n, hn⟩
  unfold messageWords blockWords
  congr 1
  funext k
  have hk := k.isLt
  rw [memRead32, at_ _ (by omega), at_ _ (by omega), at_ _ (by omega), at_ _ (by omega)]
  rfl

/-- A block within the string is not changed by what is appended. -/
theorem blockWords_append {x y : List Byte} {i : Nat} (inside : 64 * (i + 1) ≤ x.length) :
    blockWords (x ++ y) i = blockWords x i :=
  blockWords_congr fun _ hj => List.getD_append _ _ _ _ (by omega)

theorem chainAfter_zero (x : List Byte) : chainAfter x 0 = initialChaining := rfl

theorem chainAfter_append {x y : List Byte} {c : Nat} (inside : 64 * c ≤ x.length) :
    chainAfter (x ++ y) c = chainAfter x c := by
  induction c with
  | zero => rw [chainAfter_zero, chainAfter_zero]
  | succ c ih => rw [chainAfter_succ, chainAfter_succ, ih (by omega), blockWords_append inside]

/-- The block has absorbed the string `x` since INIT (43_controller.md R63, R64). -/
structure Absorbed (x : List Byte) (s : State) : Prop where
  phase : s.phase = .absorbing
  fault : s.fault = .noFault
  flag : s.f = 0
  count : s.count = 64 * blocksBeforeLast x.length
  total : s.count + s.buflen.val = x.length
  chain : s.h = chainAfter x (blocksBeforeLast x.length)
  bytes : ∀ j : Fin 64, j.val < s.buflen.val → s.bufByte j = x.getD (64 * blocksBeforeLast x.length + j.val) 0

theorem startHash_count (s : State) : (startHash s).count = 0 := by
  rw [State.count, startHash_t0, startHash_t1]
  rfl

theorem absorbed_startHash {s : State} (running : s.fault = .noFault) : Absorbed [] (startHash s) where
  phase := rfl
  fault := running
  flag := rfl
  count := startHash_count s
  total := by
    rw [startHash_count, startHash_buflen]
    rfl
  chain := (chainAfter_zero []).symm
  bytes := fun _ below => absurd below (Nat.not_lt_zero _)

theorem getD_concat (x : List Byte) (d : Byte) {n : Nat} (last : n = x.length) : (x ++ [d]).getD n 0 = d := by
  subst last
  simp

section Absorb

variable {x : List Byte} {s : State} (h : Absorbed x s)

include h

/-- With room in the buffer the byte goes into the block that is being filled. -/
theorem absorbed_appendByte {j : Fin 64} (room : s.buflen.val = j.val) (d : Byte) :
    Absorbed (x ++ [d]) (appendByte j d s) := by
  obtain ⟨phase, fault, flag, count, total, chain, bytes⟩ := h
  have hj := j.isLt
  have sameBlock : blocksBeforeLast (x ++ [d]).length = blocksBeforeLast x.length := by
    rw [List.length_append, List.length_singleton]
    simp only [blocksBeforeLast] at count ⊢
    omega
  refine ⟨phase, fault, flag, ?_, ?_, ?_, fun k hk => ?_⟩
  · rw [sameBlock]
    exact count
  · rw [List.length_append, List.length_singleton]
    change s.count + (j.val + 1) = x.length + 1
    omega
  · rw [sameBlock, chainAfter_append (by omega)]
    exact chain
  · have le : k.val < j.val + 1 := hk
    rw [sameBlock]
    by_cases new : k = j
    · rw [new, appendByte_bufByte_self, getD_concat x d (by omega)]
    · have ne := Fin.val_ne_of_ne new
      rw [appendByte_bufByte_other new, List.getD_append _ _ _ _ (by omega)]
      exact bytes k (by omega)

/-- A full buffer holds the last block of the string. -/
theorem absorbed_messageWords (full : s.buflen.val = 64) :
    messageWords s.buf = blockWords x (blocksBeforeLast x.length) :=
  messageWords_eq_blockWords fun j => h.bytes j (by omega)

/-- A full buffer is counted and compressed before the byte begins the next block. -/
theorem absorbed_compress (full : s.buflen.val = 64) (within : s.count + 64 < 2 ^ 64) (d : Byte) :
    Absorbed (x ++ [d]) (appendByte 0 d (compressBlock (takeCount (ctrAdd s.t0 s.t1 64) s))) := by
  have words := absorbed_messageWords h full
  obtain ⟨phase, fault, flag, count, total, chain, bytes⟩ := h
  have nextBlock : blocksBeforeLast (x ++ [d]).length = blocksBeforeLast x.length + 1 := by
    rw [List.length_append, List.length_singleton]
    simp only [blocksBeforeLast] at count ⊢
    omega
  have counted : (takeCount (ctrAdd s.t0 s.t1 64) s).count = 64 * (blocksBeforeLast x.length + 1) := by
    rw [takeCount_count (ctrAdd_fits within), count]
    rfl
  have low := t0_eq_countLow (takeCount (ctrAdd s.t0 s.t1 64) s)
  have high := t1_eq_countHigh (takeCount (ctrAdd s.t0 s.t1 64) s)
  refine ⟨phase, fault, flag, ?_, ?_, ?_, fun k hk => ?_⟩
  · rw [nextBlock]
    exact counted
  · rw [List.length_append, List.length_singleton]
    change (takeCount (ctrAdd s.t0 s.t1 64) s).count + 1 = x.length + 1
    omega
  · rw [nextBlock, chainAfter_append (by omega), chainAfter_succ, appendByte_h, compressBlock_h, low, high, counted,
      takeCount_h, takeCount_buf, takeCount_f, chain, words, flag]
  · have zero : k = 0 := Fin.ext (Nat.lt_one_iff.1 hk)
    rw [zero, appendByte_bufByte_self, nextBlock, getD_concat]
    simp only [Fin.val_zero]
    omega

/-- One ABSORB within the counter's limit. -/
theorem absorbed_exec (d : Byte) (bound : x.length < 2 ^ 64) :
    ∃ t, exec (.absorb d) s = .next t ∧ Absorbed (x ++ [d]) t ∧ t.pending = s.pending := by
  by_cases full : s.buflen.val = 64
  · have total := h.total
    have within : s.count + 64 < 2 ^ 64 := by omega
    exact ⟨_, exec_absorb_compresses h.fault h.phase full within d, absorbed_compress h full within d, rfl⟩
  · have room : s.buflen.val < 64 := by omega
    exact ⟨_, exec_absorb_room (j := ⟨s.buflen.val, room⟩) h.fault h.phase rfl d, absorbed_appendByte h rfl d, rfl⟩

end Absorb

theorem absorbed_dequeued {x : List Byte} {s : State} (h : Absorbed x s) (rest : List PortEvent) :
    Absorbed x { s with pending := rest } :=
  ⟨h.phase, h.fault, h.flag, h.count, h.total, h.chain, h.bytes⟩

theorem step_command {s : State} {i : Instr} {is : List Instr} {rest : List PortEvent}
    (queued : s.pending = commandEvents (i :: is) ++ rest) :
    step s = exec i { s with pending := commandEvents is ++ rest } :=
  step_word queued (decode_encode i)

/-- A run of ABSORBs absorbs their bytes, by induction on the bytes still to come. -/
theorem absorbed_steps (y : List Byte) {x : List Byte} {s : State} {is : List Instr} {rest : List PortEvent}
    (h : Absorbed x s) (bound : (x ++ y).length ≤ 2 ^ 64)
    (queued : s.pending = commandEvents (y.map .absorb ++ is) ++ rest) :
    ∃ t, steps y.length s = .next t ∧ Absorbed (x ++ y) t ∧ t.pending = commandEvents is ++ rest := by
  induction y generalizing x s with
  | nil => exact ⟨s, rfl, by rwa [List.append_nil], queued⟩
  | cons d y ih =>
    have regroup : x ++ d :: y = (x ++ [d]) ++ y := List.append_cons x d y
    have first : x.length < 2 ^ 64 := by
      rw [List.length_append, List.length_cons] at bound
      omega
    obtain ⟨u, executed, absorbed, pending⟩ := absorbed_exec (absorbed_dequeued h _) d first
    obtain ⟨t, run, result⟩ := ih absorbed (regroup ▸ bound) pending
    refine ⟨t, ?_, regroup ▸ result⟩
    rw [List.length_cons, steps_next ((step_command queued).trans executed), run]

/-- INIT and the ABSORBs of a string, whatever is issued after them. -/
theorem absorbed_program {s : State} (x : List Byte) {is : List Instr} {rest : List PortEvent}
    (running : s.fault = .noFault) (bound : x.length ≤ 2 ^ 64)
    (queued : s.pending = commandEvents (.init :: (x.map .absorb ++ is)) ++ rest) :
    ∃ t, steps (x.length + 1) s = .next t ∧ Absorbed x t ∧ t.pending = commandEvents is ++ rest := by
  have started := (step_command queued).trans (exec_init_running running)
  rw [steps_next started]
  refine absorbed_steps x (absorbed_startHash ?_) bound ?_
  · exact running
  · rfl

/-- Settles O41: the run ends in a state that has absorbed the string, and the buffer's length is the rest of its
length. -/
theorem absorbedBytesAreCountedAndBuffered : Obligations.AbsorbedBytesAreCountedAndBuffered := by
  intro s x rest running bound queued
  obtain ⟨t, run, ⟨phase, fault, flag, count, total, chain, bytes⟩, pending⟩ :=
    absorbed_program x (is := []) (rest := rest) running bound (by rwa [List.append_nil])
  have blocks : blocksBeforeLast x.length = (x.length - 1) / 64 := rfl
  refine ⟨t, run, phase, fault, pending, flag, ?_, ?_, count, total, chain, bytes⟩
  · omega
  · omega

end Sys2Proof.Machine
end

section
/-! The hash through the ports: FINAL after the ABSORBs (43_controller.md R61, R64). -/

namespace Sys2Proof.Machine

section Finish

variable {x : List Byte} {s : State} (h : Absorbed x s)

include h

/-- The padded buffer holds the last block, with zeros past the end of the string. -/
theorem absorbed_messageWords_padTail :
    messageWords (padTail s).buf = blockWords x (blocksBeforeLast x.length) := by
  refine messageWords_eq_blockWords fun j => ?_
  refine (padTail_bufByte s j).trans ?_
  have ends : 64 * blocksBeforeLast x.length + s.buflen.val = x.length := h.count ▸ h.total
  split
  · next below => exact h.bytes j below
  · rw [List.getD_eq_default _ _ (by omega)]

/-- FINAL within the counter's limit compresses the last block with the counter `n` and the all-ones flag. -/
theorem absorbed_final (bound : x.length < 2 ^ 64) :
    ∃ t, exec .final s = .next t ∧ t.h = hashChain x ∧ t.phase = .finalized ∧ t.fault = .noFault ∧
      t.count = x.length ∧ t.f = 0xFFFFFFFF ∧ t.pending = s.pending := by
  have within : s.count + s.buflen.val < 2 ^ 64 := by rwa [h.total]
  have counted := (takeCount_count (ctrAdd_fits within)).trans h.total
  have low := t0_eq_countLow (takeCount (ctrAdd s.t0 s.t1 s.buflen) s)
  have high := t1_eq_countHigh (takeCount (ctrAdd s.t0 s.t1 s.buflen) s)
  have sameBuffer : (padTail (raiseFlag (takeCount (ctrAdd s.t0 s.t1 s.buflen) s))).buf = (padTail s).buf := rfl
  refine ⟨_, exec_final_finishes h.fault h.phase within, ?_, rfl, h.fault, counted, rfl, rfl⟩
  rw [finishHash_h, compressBlock_h, padTail_h, padTail_t0, padTail_t1, padTail_f, raiseFlag_h, raiseFlag_t0,
    raiseFlag_t1, raiseFlag_f, low, high, counted, takeCount_h, h.chain, sameBuffer,
    absorbed_messageWords_padTail h, hashChain, flagFinal]

end Finish

theorem digest_of_finalized {s : State} (finalized : s.phase = .finalized) (running : s.fault = .noFault) :
    s.digest = some (digestBytes s.h) := if_pos ⟨finalized, running⟩

theorem status_of_finalized {s : State} (finalized : s.phase = .finalized) (running : s.fault = .noFault) :
    s.status = 2 := by
  rw [State.status, finalized, running]
  rfl

/-- Settles O42: the run absorbs the string, and FINAL leaves the block-by-block hash in `h`. -/
theorem digestIsTheBlockwiseHash : Obligations.DigestIsTheBlockwiseHash := by
  intro s x rest running bound queued
  obtain ⟨u, run, absorbed, pending⟩ := absorbed_program x running (Nat.le_of_lt bound) queued
  obtain ⟨t, executed, hash, finalized, fault, count, flag, left⟩ :=
    absorbed_final (absorbed_dequeued absorbed rest) bound
  have last : steps 1 u = .next t := steps_next ((step_command pending).trans executed)
  refine ⟨t, (steps_add run).trans last, ?_, status_of_finalized finalized fault, count, flag, left⟩
  rw [digest_of_finalized finalized fault, hash]

end Sys2Proof.Machine
end
